-- ==== Sys2Proof/Word.lean ====
section
/-!
DEFINITION. The bit vectors the spec treats as bits, and the two index types of an instruction's fields.
Widths: spec/00_scope.md R6, R10, R11.
-/
namespace Sys2Proof

/-- A byte: a cell of memory, a V register, a timer, an R register (R21, R33, R34, R44, R60). -/
abbrev Byte := BitVec 8

/-- A 16-bit word: an instruction word, `pc`, `I`, a stack entry (R10, R25, R30, R31). -/
abbrev Word := BitVec 16

/-- The 12-bit field `NNN`, an absolute byte address (R11, R92). -/
abbrev Address := BitVec 12

/-- A register number, the value of an `X` or `Y` field (R11, R92). -/
abbrev Reg := Fin 16

/-- The field `N`: a count 0 to 15 (R11, R92). -/
abbrev Count := Fin 16

end Sys2Proof
end

