-- ==== Sys2Proof/Config.lean ====
section
/-!
DEFINITION. What an implementation fixes (the open parameters of spec/00_scope.md R6) and the one free value of
the machine, the byte CXKK draws (spec/42_register_alu.md R176).
-/
namespace Sys2Proof

/-- The machine's parameters, fixed for its life (R6, D3, D28, D36). A state carries them, and no operation
writes them, so a statement over all states holds for every value of every parameter. -/
structure Config where
  /-- `SCHIP`: whether the nine extension patterns decode (R250). -/
  schip : Bool
  /-- `FONT`: the 80 glyph bytes reset installs at 0x000 (R343). -/
  font : Vector Byte 80
  /-- `BIGFONT_BASE`: the base of the 10-byte glyphs FX30 points at (R270). -/
  bigFontBase : Word
deriving DecidableEq, Repr

/-- The default font of R343, glyph d at 5 * d. -/
def defaultFont : Vector Byte 80 :=
  #v[0xF0, 0x90, 0x90, 0x90, 0xF0,  0x20, 0x60, 0x20, 0x20, 0x70,
     0xF0, 0x10, 0xF0, 0x80, 0xF0,  0xF0, 0x10, 0xF0, 0x10, 0xF0,
     0x90, 0x90, 0xF0, 0x10, 0x10,  0xF0, 0x80, 0xF0, 0x10, 0xF0,
     0xF0, 0x80, 0xF0, 0x90, 0xF0,  0xF0, 0x10, 0x20, 0x40, 0x40,
     0xF0, 0x90, 0xF0, 0x90, 0xF0,  0xF0, 0x90, 0xF0, 0x10, 0xF0,
     0xF0, 0x90, 0xF0, 0x90, 0x90,  0xE0, 0x90, 0xE0, 0x90, 0xE0,
     0xF0, 0x80, 0x80, 0x80, 0xF0,  0xE0, 0x90, 0x90, 0x90, 0xE0,
     0xF0, 0x80, 0xF0, 0x80, 0xF0,  0xF0, 0x80, 0xF0, 0x80, 0x80]

/-- The parameters of the machine `State.reset` starts from. DESIGN CHOICE (unsafe, log entries 2, 3, 4):
`SCHIP` true so that all 43 rows of the opcode table decode, the default font of R343, and the `BIGFONT_BASE`
that R270 calls the natural choice. -/
def defaultConfig : Config where
  schip := true
  font := defaultFont
  bigFontBase := 0x0050

/-- The byte `random_byte()` yields at the n-th draw (R176). A FREE VALUE (log entry 5, safe): it has no body, so
no proof can see a value of it. -/
opaque Config.freeByte : Nat → Byte

end Sys2Proof
end

