-- ==== Sys2Proof/Syntax.lean ====
section
/-!
DEFINITION. The instructions: one constructor per row of spec/opcode_table.json, 34 base patterns
(spec/30_encoding.md R97) and 9 of the extension (R98). Operand fields: R91, R92.
-/
namespace Sys2Proof

/-- An instruction of the opcode map, in the table's order. -/
inductive Instr where
  /-- 00E0, `CLS`: clear the display (R230). -/
  | cls
  /-- 00EE, `RET`: return from subroutine (R143). -/
  | ret
  /-- 1NNN, `JP nnn`: absolute jump (R140). -/
  | jpNnn (nnn : Address)
  /-- 2NNN, `CALL nnn`: call subroutine (R141). -/
  | callNnn (nnn : Address)
  /-- 3XKK, `SE Vx, kk`: skip if equal to constant (R144). -/
  | seVxKk (x : Reg) (kk : Byte)
  /-- 4XKK, `SNE Vx, kk`: skip if not equal to constant (R145). -/
  | sneVxKk (x : Reg) (kk : Byte)
  /-- 5XY0, `SE Vx, Vy`: skip if registers equal (R146). -/
  | seVxVy (x : Reg) (y : Reg)
  /-- 6XKK, `LD Vx, kk`: load constant (R160). -/
  | ldVxKk (x : Reg) (kk : Byte)
  /-- 7XKK, `ADD Vx, kk`: add constant, no flag (R161). -/
  | addVxKk (x : Reg) (kk : Byte)
  /-- 8XY0, `LD Vx, Vy`: assign (R164). -/
  | ldVxVy (x : Reg) (y : Reg)
  /-- 8XY1, `OR Vx, Vy`: bitwise OR (R165). -/
  | orVxVy (x : Reg) (y : Reg)
  /-- 8XY2, `AND Vx, Vy`: bitwise AND (R166). -/
  | andVxVy (x : Reg) (y : Reg)
  /-- 8XY3, `XOR Vx, Vy`: bitwise exclusive OR (R167). -/
  | xorVxVy (x : Reg) (y : Reg)
  /-- 8XY4, `ADD Vx, Vy`: add with carry out (R168). -/
  | addVxVy (x : Reg) (y : Reg)
  /-- 8XY5, `SUB Vx, Vy`: subtract, VX minus VY (R169). -/
  | subVxVy (x : Reg) (y : Reg)
  /-- 8XY6, `SHR Vx`: shift right by one; the Y field takes any value and is ignored (R99) (R170). -/
  | shrVx (x : Reg) (y : Reg)
  /-- 8XY7, `SUBN Vx, Vy`: reverse subtract, VY minus VX (R171). -/
  | subnVxVy (x : Reg) (y : Reg)
  /-- 8XYE, `SHL Vx`: shift left by one; the Y field takes any value and is ignored (R99) (R172). -/
  | shlVx (x : Reg) (y : Reg)
  /-- 9XY0, `SNE Vx, Vy`: skip if registers differ (R148). -/
  | sneVxVy (x : Reg) (y : Reg)
  /-- ANNN, `LD I, nnn`: load index (R190). -/
  | ldINnn (nnn : Address)
  /-- BNNN, `JP V0, nnn`: jump with offset V0 (R147). -/
  | jpV0Nnn (nnn : Address)
  /-- CXKK, `RND Vx, kk`: masked random byte (R175). -/
  | rndVxKk (x : Reg) (kk : Byte)
  /-- DXYN, `DRW Vx, Vy, n`: draw sprite and detect collision (R232). -/
  | drwVxVyN (x : Reg) (y : Reg) (n : Count)
  /-- EX9E, `SKP Vx`: skip if key pressed (R220). -/
  | skpVx (x : Reg)
  /-- EXA1, `SKNP Vx`: skip if key not pressed (R221). -/
  | sknpVx (x : Reg)
  /-- FX07, `LD Vx, DT`: read delay timer (R210). -/
  | ldVxDt (x : Reg)
  /-- FX0A, `LD Vx, K`: wait for a key (R224). -/
  | ldVxK (x : Reg)
  /-- FX15, `LD DT, Vx`: set delay timer (R211). -/
  | ldDtVx (x : Reg)
  /-- FX18, `LD ST, Vx`: set sound timer (R212). -/
  | ldStVx (x : Reg)
  /-- FX1E, `ADD I, Vx`: add register to index (R192). -/
  | addIVx (x : Reg)
  /-- FX29, `LD F, Vx`: point I at a font glyph (R194). -/
  | ldFVx (x : Reg)
  /-- FX33, `LD B, Vx`: store binary-coded decimal (R196). -/
  | ldBVx (x : Reg)
  /-- FX55, `LD [I], Vx`: store registers V0 to VX (R198). -/
  | ldMemVx (x : Reg)
  /-- FX65, `LD Vx, [I]`: load registers V0 to VX (R200). -/
  | ldVxMem (x : Reg)
  /-- 00CN, `SCD n`: scroll down N lines (R252). -/
  | scdN (n : Count)
  /-- 00FB, `SCR`: scroll right 4 pixels (R254). -/
  | scr
  /-- 00FC, `SCL`: scroll left 4 pixels (R256). -/
  | scl
  /-- 00FD, `EXIT`: exit the interpreter (R258). -/
  | exit
  /-- 00FE, `LOW`: select standard 64 by 32 mode (R260). -/
  | low
  /-- 00FF, `HIGH`: select extended 128 by 64 mode (R262). -/
  | high
  /-- FX30, `LD HF, Vx`: point I at a 10-byte glyph (R270). -/
  | ldHfVx (x : Reg)
  /-- FX75, `LD R, Vx`: save V0 to VX in the R registers (X at most 7) (R266). -/
  | ldRVx (x : Reg)
  /-- FX85, `LD Vx, R`: restore V0 to VX from the R registers (X at most 7) (R268). -/
  | ldVxR (x : Reg)
deriving DecidableEq, Repr

end Sys2Proof
end

