-- ==== Sys2Proof/WellFormed.lean ====
section
/-!
DEFINITION. Which instruction terms stand for a word of the opcode map. The field types already bound every operand
(spec/30_encoding.md R92); what is left is the rule R98 states for FX75 and FX85, that X is at most 7.
-/
namespace Sys2Proof

/-- The term is the reading of some word: FX75 and FX85 name a register V0 to V7 (R92, R98). -/
def Instr.wellFormed : Instr → Bool
  | .cls => true
  | .ret => true
  | .jpNnn _ => true
  | .callNnn _ => true
  | .seVxKk _ _ => true
  | .sneVxKk _ _ => true
  | .seVxVy _ _ => true
  | .ldVxKk _ _ => true
  | .addVxKk _ _ => true
  | .ldVxVy _ _ => true
  | .orVxVy _ _ => true
  | .andVxVy _ _ => true
  | .xorVxVy _ _ => true
  | .addVxVy _ _ => true
  | .subVxVy _ _ => true
  | .shrVx _ _ => true
  | .subnVxVy _ _ => true
  | .shlVx _ _ => true
  | .sneVxVy _ _ => true
  | .ldINnn _ => true
  | .jpV0Nnn _ => true
  | .rndVxKk _ _ => true
  | .drwVxVyN _ _ _ => true
  | .skpVx _ => true
  | .sknpVx _ => true
  | .ldVxDt _ => true
  | .ldVxK _ => true
  | .ldDtVx _ => true
  | .ldStVx _ => true
  | .addIVx _ => true
  | .ldFVx _ => true
  | .ldBVx _ => true
  | .ldMemVx _ => true
  | .ldVxMem _ => true
  | .scdN _ => true
  | .scr => true
  | .scl => true
  | .exit => true
  | .low => true
  | .high => true
  | .ldHfVx _ => true
  | .ldRVx x => x.val ≤ 7
  | .ldVxR x => x.val ≤ 7

/-- The instruction is one of the nine that exist only when `SCHIP` is true (R98, R250). -/
def Instr.isExtension : Instr → Bool
  | .cls => false
  | .ret => false
  | .jpNnn _ => false
  | .callNnn _ => false
  | .seVxKk _ _ => false
  | .sneVxKk _ _ => false
  | .seVxVy _ _ => false
  | .ldVxKk _ _ => false
  | .addVxKk _ _ => false
  | .ldVxVy _ _ => false
  | .orVxVy _ _ => false
  | .andVxVy _ _ => false
  | .xorVxVy _ _ => false
  | .addVxVy _ _ => false
  | .subVxVy _ _ => false
  | .shrVx _ _ => false
  | .subnVxVy _ _ => false
  | .shlVx _ _ => false
  | .sneVxVy _ _ => false
  | .ldINnn _ => false
  | .jpV0Nnn _ => false
  | .rndVxKk _ _ => false
  | .drwVxVyN _ _ _ => false
  | .skpVx _ => false
  | .sknpVx _ => false
  | .ldVxDt _ => false
  | .ldVxK _ => false
  | .ldDtVx _ => false
  | .ldStVx _ => false
  | .addIVx _ => false
  | .ldFVx _ => false
  | .ldBVx _ => false
  | .ldMemVx _ => false
  | .ldVxMem _ => false
  | .scdN _ => true
  | .scr => true
  | .scl => true
  | .exit => true
  | .low => true
  | .high => true
  | .ldHfVx _ => true
  | .ldRVx _ => true
  | .ldVxR _ => true

end Sys2Proof
end

