-- ==== Sys2Proof/Decode.lean ====
section
/-!
DEFINITION. Decoding, total on any bytes, rejecting by name, and after it the encoder.
spec/30_encoding.md R90 to R101 and R112, spec/20_memory.md R61, spec/40_step_fetch_decode.md R123.
-/
namespace Sys2Proof

/-! ### Fields of an instruction word (R11) -/

/-- `X = op[11:8]`. -/
def fieldX (w : Word) : Reg := ⟨(w.extractLsb' 8 4).toNat, (w.extractLsb' 8 4).isLt⟩

/-- `Y = op[7:4]`. -/
def fieldY (w : Word) : Reg := ⟨(w.extractLsb' 4 4).toNat, (w.extractLsb' 4 4).isLt⟩

/-- `N = op[3:0]`. -/
def fieldN (w : Word) : Count := ⟨(w.extractLsb' 0 4).toNat, (w.extractLsb' 0 4).isLt⟩

/-- `KK = op[7:0]`. -/
def fieldKK (w : Word) : Byte := w.extractLsb' 0 8

/-- `NNN = op[11:0]`. -/
def fieldNNN (w : Word) : Address := w.extractLsb' 0 12

/-- Two bytes as an instruction word, big-endian: the byte at the lower address is bits 15 to 8 (R61). -/
def wordOfBytes (first second : Byte) : Word := first ++ second

/-! ### The opcode map -/

/-- One row of the opcode map, read at a word: the word selects `instr` when `word &&& mask = value` (R94). -/
structure Pattern where
  mask : Word
  value : Word
  instr : Instr
deriving DecidableEq, Repr

/-- The 34 base rows of R97, their operands taken from the word `w`. -/
def basePatterns (w : Word) : List Pattern :=
  [
    ⟨0xFFFF, 0x00E0, .cls⟩,
    ⟨0xFFFF, 0x00EE, .ret⟩,
    ⟨0xF000, 0x1000, .jpNnn (fieldNNN w)⟩,
    ⟨0xF000, 0x2000, .callNnn (fieldNNN w)⟩,
    ⟨0xF000, 0x3000, .seVxKk (fieldX w) (fieldKK w)⟩,
    ⟨0xF000, 0x4000, .sneVxKk (fieldX w) (fieldKK w)⟩,
    ⟨0xF00F, 0x5000, .seVxVy (fieldX w) (fieldY w)⟩,
    ⟨0xF000, 0x6000, .ldVxKk (fieldX w) (fieldKK w)⟩,
    ⟨0xF000, 0x7000, .addVxKk (fieldX w) (fieldKK w)⟩,
    ⟨0xF00F, 0x8000, .ldVxVy (fieldX w) (fieldY w)⟩,
    ⟨0xF00F, 0x8001, .orVxVy (fieldX w) (fieldY w)⟩,
    ⟨0xF00F, 0x8002, .andVxVy (fieldX w) (fieldY w)⟩,
    ⟨0xF00F, 0x8003, .xorVxVy (fieldX w) (fieldY w)⟩,
    ⟨0xF00F, 0x8004, .addVxVy (fieldX w) (fieldY w)⟩,
    ⟨0xF00F, 0x8005, .subVxVy (fieldX w) (fieldY w)⟩,
    ⟨0xF00F, 0x8006, .shrVx (fieldX w) (fieldY w)⟩,
    ⟨0xF00F, 0x8007, .subnVxVy (fieldX w) (fieldY w)⟩,
    ⟨0xF00F, 0x800E, .shlVx (fieldX w) (fieldY w)⟩,
    ⟨0xF00F, 0x9000, .sneVxVy (fieldX w) (fieldY w)⟩,
    ⟨0xF000, 0xA000, .ldINnn (fieldNNN w)⟩,
    ⟨0xF000, 0xB000, .jpV0Nnn (fieldNNN w)⟩,
    ⟨0xF000, 0xC000, .rndVxKk (fieldX w) (fieldKK w)⟩,
    ⟨0xF000, 0xD000, .drwVxVyN (fieldX w) (fieldY w) (fieldN w)⟩,
    ⟨0xF0FF, 0xE09E, .skpVx (fieldX w)⟩,
    ⟨0xF0FF, 0xE0A1, .sknpVx (fieldX w)⟩,
    ⟨0xF0FF, 0xF007, .ldVxDt (fieldX w)⟩,
    ⟨0xF0FF, 0xF00A, .ldVxK (fieldX w)⟩,
    ⟨0xF0FF, 0xF015, .ldDtVx (fieldX w)⟩,
    ⟨0xF0FF, 0xF018, .ldStVx (fieldX w)⟩,
    ⟨0xF0FF, 0xF01E, .addIVx (fieldX w)⟩,
    ⟨0xF0FF, 0xF029, .ldFVx (fieldX w)⟩,
    ⟨0xF0FF, 0xF033, .ldBVx (fieldX w)⟩,
    ⟨0xF0FF, 0xF055, .ldMemVx (fieldX w)⟩,
    ⟨0xF0FF, 0xF065, .ldVxMem (fieldX w)⟩]

/-- The 9 extension rows of R98, their operands taken from the word `w`. -/
def extensionPatterns (w : Word) : List Pattern :=
  [
    ⟨0xFFF0, 0x00C0, .scdN (fieldN w)⟩,
    ⟨0xFFFF, 0x00FB, .scr⟩,
    ⟨0xFFFF, 0x00FC, .scl⟩,
    ⟨0xFFFF, 0x00FD, .exit⟩,
    ⟨0xFFFF, 0x00FE, .low⟩,
    ⟨0xFFFF, 0x00FF, .high⟩,
    ⟨0xF0FF, 0xF030, .ldHfVx (fieldX w)⟩,
    ⟨0xF8FF, 0xF075, .ldRVx (fieldX w)⟩,
    ⟨0xF8FF, 0xF085, .ldVxR (fieldX w)⟩]

/-- The rows that decode: the extension's only when `SCHIP` is true (R98). -/
def patterns (schip : Bool) (w : Word) : List Pattern :=
  if schip then basePatterns w ++ extensionPatterns w else basePatterns w

/-- Why bytes are no instruction. -/
inductive Reject where
  /-- The word matches no row of the opcode map (R100). Safe: the spec's own result of decoding it. -/
  | unknownInstruction (op : Word)
  /-- Fewer than the two bytes every instruction has (R90). Safe: nothing is decoded. -/
  | truncated
deriving DecidableEq, Repr

/-- The dispatcher: a pure function of the word and of `SCHIP` (R123). -/
def decode (schip : Bool) (w : Word) : Except Reject Instr :=
  match (patterns schip w).find? (fun p => w &&& p.mask == p.value) with
  | some p => .ok p.instr
  | none => .error (.unknownInstruction w)

/-- Decoding a byte sequence: one instruction and the bytes after it. -/
def decodeBytes (schip : Bool) : List Byte → Except Reject (Instr × List Byte)
  | first :: second :: rest =>
    match decode schip (wordOfBytes first second) with
    | .ok i => .ok (i, rest)
    | .error e => .error e
  | _ => .error .truncated

/-! ### The encoder (R112): the row's match value with the operands ORed in -/

/-- A register number in bits 11 to 8. -/
def atX (x : Reg) : Word := BitVec.ofNat 16 x.val <<< 8

/-- A register number in bits 7 to 4. -/
def atY (y : Reg) : Word := BitVec.ofNat 16 y.val <<< 4

/-- A count in bits 3 to 0. -/
def low4 (n : Count) : Word := BitVec.ofNat 16 n.val

/-- A constant in bits 7 to 0. -/
def low8 (kk : Byte) : Word := kk.setWidth 16

/-- An address in bits 11 to 0. -/
def low12 (nnn : Address) : Word := nnn.setWidth 16

/-- The instruction's word (R97, R98, R112). -/
def encode : Instr → Word
  | .cls => 0x00E0
  | .ret => 0x00EE
  | .jpNnn nnn => 0x1000 ||| low12 nnn
  | .callNnn nnn => 0x2000 ||| low12 nnn
  | .seVxKk x kk => 0x3000 ||| atX x ||| low8 kk
  | .sneVxKk x kk => 0x4000 ||| atX x ||| low8 kk
  | .seVxVy x y => 0x5000 ||| atX x ||| atY y
  | .ldVxKk x kk => 0x6000 ||| atX x ||| low8 kk
  | .addVxKk x kk => 0x7000 ||| atX x ||| low8 kk
  | .ldVxVy x y => 0x8000 ||| atX x ||| atY y
  | .orVxVy x y => 0x8001 ||| atX x ||| atY y
  | .andVxVy x y => 0x8002 ||| atX x ||| atY y
  | .xorVxVy x y => 0x8003 ||| atX x ||| atY y
  | .addVxVy x y => 0x8004 ||| atX x ||| atY y
  | .subVxVy x y => 0x8005 ||| atX x ||| atY y
  | .shrVx x y => 0x8006 ||| atX x ||| atY y
  | .subnVxVy x y => 0x8007 ||| atX x ||| atY y
  | .shlVx x y => 0x800E ||| atX x ||| atY y
  | .sneVxVy x y => 0x9000 ||| atX x ||| atY y
  | .ldINnn nnn => 0xA000 ||| low12 nnn
  | .jpV0Nnn nnn => 0xB000 ||| low12 nnn
  | .rndVxKk x kk => 0xC000 ||| atX x ||| low8 kk
  | .drwVxVyN x y n => 0xD000 ||| atX x ||| atY y ||| low4 n
  | .skpVx x => 0xE09E ||| atX x
  | .sknpVx x => 0xE0A1 ||| atX x
  | .ldVxDt x => 0xF007 ||| atX x
  | .ldVxK x => 0xF00A ||| atX x
  | .ldDtVx x => 0xF015 ||| atX x
  | .ldStVx x => 0xF018 ||| atX x
  | .addIVx x => 0xF01E ||| atX x
  | .ldFVx x => 0xF029 ||| atX x
  | .ldBVx x => 0xF033 ||| atX x
  | .ldMemVx x => 0xF055 ||| atX x
  | .ldVxMem x => 0xF065 ||| atX x
  | .scdN n => 0x00C0 ||| low4 n
  | .scr => 0x00FB
  | .scl => 0x00FC
  | .exit => 0x00FD
  | .low => 0x00FE
  | .high => 0x00FF
  | .ldHfVx x => 0xF030 ||| atX x
  | .ldRVx x => 0xF075 ||| atX x
  | .ldVxR x => 0xF085 ||| atX x

/-- The instruction's two bytes in memory order, big-endian (R61). -/
def encodeBytes (i : Instr) : List Byte :=
  [(encode i).extractLsb' 8 8, (encode i).extractLsb' 0 8]

/-! ### The host's question -/

/-- The instruction the decoder reads from the table's word `w`, of `nbits` bits: one 16-bit word, laid out
big-endian and decoded with `SCHIP` true, since the table lists the extension's rows too (log entry 2). -/
def decodeTableWord (nbits w : Nat) : Option Instr :=
  let word : Word := BitVec.ofNat 16 (w % 2 ^ nbits)
  match decodeBytes true [word.extractLsb' 8 8, word.extractLsb' 0 8] with
  | .ok (i, _) => some i
  | .error _ => none

end Sys2Proof
end

