-- ==== Sys2Proof/Machine/Video.lean ====
section
/-!
DEFINITION. `videoMemory`, its cells and the pixel grid laid over them: spec/10_state.md R39 and R46,
spec/46_display.md R231 to R234, spec/47_schip_extension.md R252 to R256.
-/
namespace Sys2Proof.Machine

/-! ### The cells -/

/-- 128 consecutive cells of `videoMemory`, the first of them in bit 0: a row of the extended grid, two rows of the
standard one (R46). -/
abbrev Line := BitVec 128

/-- `videoMemory` (R46): the cells at linear positions 128 * l to 128 * l + 127 are line l. DESIGN CHOICE (safe, log
entry 11): its length is data, 8192 cells or 2048 in a well-typed state. -/
abbrev Video := List Line

/-- How many cells the machine stores: 8192 when `SCHIP` is true, 2048 when it is false (R46). -/
def cellCount (schip : Bool) : Nat := if schip then 8192 else 2048

/-- Every cell of the machine's store 0. -/
def Video.dark (schip : Bool) : Video := List.replicate (cellCount schip / 128) 0

/-- How many cells are stored. -/
def Video.size (g : Video) : Nat := 128 * g.length

/-- Line l; dark where there is none. -/
def Video.line (g : Video) (l : Nat) : Line := g.getD l 0

/-- The cell at linear position p; false where there is none. -/
def Video.cell (g : Video) (p : Nat) : Bool := (g.line (p / 128)).getLsbD (p % 128)

/-- `cell <- cell ^ 1` at linear position p (R232). -/
def Video.toggle (g : Video) (p : Nat) : Video :=
  g.set (p / 128) (g.line (p / 128) ^^^ BitVec.twoPow 128 (p % 128))

/-- Every stored cell 0, those outside the active grid too (R230, R264). -/
def Video.cleared (g : Video) : Video := List.replicate g.length 0

/-! ### The active grid -/

/-- `W`, the width of the active grid (R39). -/
def gridWidth (extended : Bool) : Nat := if extended then 128 else 64

/-- `H`, the height of the active grid (R39). -/
def gridHeight (extended : Bool) : Nat := if extended then 64 else 32

/-- The linear position of `pix(x, y)` in a grid of width w, row-major (R46). -/
def linearPosition (w x y : Nat) : Nat := y * w + x

/-- `pix(x, y)` of a w by h grid (R12, R46); false outside it. -/
def Video.pix (g : Video) (w h x y : Nat) : Bool :=
  decide (x < w) && decide (y < h) && g.cell (linearPosition w x y)

/-- Every cell outside a w by h grid is 0 (R46); the grid is whole lines in both modes. -/
def Video.darkOutside (g : Video) (w h : Nat) : Bool :=
  (List.range g.length).all fun l => decide (l < w * h / 128) || g.line l == 0

/-- 64 consecutive cells: a row of the standard grid, half a row of the extended one. -/
abbrev Strip := BitVec 64

/-- The cells at linear positions 64 * k to 64 * k + 63. -/
def Video.strip (g : Video) (k : Nat) : Strip := (g.line (k / 2)).extractLsb' (64 * (k % 2)) 64

/-- The store with the strips of the active grid given and every other cell as it was: the scrolls move the pixels of
the active grid only (spec/47_schip_extension.md section 2). -/
def Video.withActive (g : Video) (w h : Nat) (active : Nat → Strip) : Video :=
  (List.range g.length).map fun l =>
    if l < w * h / 128 then active (2 * l + 1) ++ active (2 * l) else g.line l

/-- The active grid moved down n rows of `w / 64` strips, vacated rows 0 (R252). -/
def Video.scrollDown (g : Video) (w h n : Nat) : Video :=
  g.withActive w h fun k => if n * (w / 64) ≤ k then g.strip (k - n * (w / 64)) else 0

/-- The active grid moved right 4 columns, vacated columns 0 (R254); the first strip of a row takes nothing from the row
above. -/
def Video.scrollRight (g : Video) (w h : Nat) : Video :=
  g.withActive w h fun k =>
    g.strip k <<< 4 ||| (if k % (w / 64) = 0 then (0 : Strip) else g.strip (k - 1) >>> 60)

/-- The active grid moved left 4 columns, vacated columns 0 (R256); the last strip of a row takes nothing from the row
below. -/
def Video.scrollLeft (g : Video) (w h : Nat) : Video :=
  g.withActive w h fun k =>
    g.strip k >>> 4 ||| (if (k + 1) % (w / 64) = 0 then (0 : Strip) else g.strip (k + 1) <<< 60)

/-! ### Drawing -/

/-- The store being drawn on, and whether a set pixel has been cleared (R232, R233). -/
structure Canvas where
  video : Video
  collision : Bool
deriving DecidableEq, Repr

/-- One 1 bit of a sprite on the cell at p: record a collision, toggle the cell (R232). -/
def Canvas.plot (c : Canvas) (p : Nat) : Canvas where
  video := c.video.toggle p
  collision := c.collision || c.video.cell p

/-- One sprite row `b` at column x0 of display row y: bit 7 is the leftmost pixel (R231), columns taken modulo the
width (R234). -/
def Canvas.drawRow (w x0 y : Nat) (b : Byte) (c : Canvas) : Canvas :=
  (List.range 8).foldl
    (fun c k => if b.getLsbD (7 - k) then c.plot (linearPosition w ((x0 + k) % w) y) else c) c

/-- The sprite rows, row r of the sprite at display row `(y0 + r) mod H` (R232, R234). -/
def Canvas.drawRows (w h x0 y0 : Nat) : List Byte → Canvas → Canvas
  | [], c => c
  | b :: bs, c => Canvas.drawRows w h x0 (y0 + 1) bs (Canvas.drawRow w x0 (y0 % h) b c)

end Sys2Proof.Machine
end

