-- ==== Sys2Proof/Machine/State.lean ====
section
/-!
DEFINITION. The machine's state as plain data, its value right after reset, and the ways an operation can end.
spec/10_state.md R20 to R52, spec/60_exceptions.md R300, spec/00_scope.md R7 and R13.
-/
namespace Sys2Proof.Machine

/-- The contents of `memory` (R45, R60), DESIGN CHOICE (safe, log entry 8): the cells that differ from what an unlisted address reads as, addresses
strictly rising. The form is `Memory.wf`; reading and writing are in Machine/Memory.lean. -/
abbrev Memory := List Host.Cell

/-- The spec's "Machine State": the fields of R20 and no other. It is what `export_state` hands out and
`import_state` takes (R290). -/
structure Snapshot where
  /-- `memory`, 4096 bytes (R45). -/
  memory : Memory
  /-- The general registers V0 to VF, 8 bits each (R21). -/
  v : Vector Byte 16
  /-- The index register `I`, 16 bits (R30). -/
  i : Word
  /-- The program counter, 16 bits (R25). -/
  pc : Word
  /-- `stack[0..15]`, 16 bits each (R31). -/
  stack : Vector Word 16
  /-- `sp`: how many stack entries are in use, 0 to 16, held in 8 bits (R32). -/
  sp : BitVec 8
  /-- `delayTimer`, 8 bits (R33). -/
  delayTimer : Byte
  /-- `soundTimer`, 8 bits (R34). -/
  soundTimer : Byte
  /-- `videoMemory`, 8192 cells or 2048 without the extension (R46). -/
  videoMemory : Video
  /-- `extendedGraphicsMode`: 128 by 64 when set, else 64 by 32 (R39). -/
  extendedGraphicsMode : Bool
  /-- `key[0..15]`, true when pressed (R38). -/
  key : Vector Bool 16
  /-- `refreshScreen`: something was drawn since the sink last looked (R36). -/
  refreshScreen : Bool
  /-- The auxiliary registers `R[0..7]`, 8 bits each (R44). -/
  r : Vector Byte 8
deriving DecidableEq, Repr

/-- What an operation returned to its caller: `Ok` or one of the seven kinds of R300. -/
inductive Result where
  /-- `Ok` (R13). -/
  | ok
  /-- Kind 1, by `step`: the word `op` fetched from `address` matches no pattern (R124). -/
  | unknownInstruction (op : Word) (address : Word)
  /-- Kind 2, by 2NNN with `sp = 16` (R141). -/
  | stackOverflow
  /-- Kind 3, by 00EE with `sp = 0` (R143). -/
  | stackUnderflow
  /-- Kind 4, by fetch, FX33, FX55, FX65 and DXYN: the lowest address above 0xFFF that would be touched (R68). -/
  | memoryOutOfRange (address : Nat)
  /-- Kind 5, by EX9E and EXA1: the value of VX, above 15 (R219). -/
  | keyIndexOutOfRange (value : Byte)
  /-- Kind 6, by 00FD; not an error (R258). -/
  | exitRequested
  /-- Kind 7, by `load_program`: the length of the refused program (R281). -/
  | programTooLarge (length : Nat)
deriving DecidableEq, Repr

/-- The operations on the machine, each atomic (R7). -/
inductive Operation where
  /-- `reset()` (R340). -/
  | reset
  /-- `load_program(bytes)` (R280). -/
  | loadProgram (bytes : List Byte)
  /-- `step()`, one instruction (R120). -/
  | step
  /-- `tick()`, the 60 Hz countdown (R284). -/
  | tick
  /-- `write_keys(k)` (R286). -/
  | writeKeys (keys : Vector Bool 16)
  /-- `clear_refresh()` (R288). -/
  | clearRefresh
  /-- `export_state()` (R290). -/
  | exportState
  /-- `import_state(s)` (R290). -/
  | importState (snapshot : Snapshot)
deriving DecidableEq, Repr

/-- The model's state: the spec's state value (R20), the machine's parameters (R6), and three fields that are THE
MODEL'S OWN and no part of the spec's machine (log entries 1, 5, 6): no instruction's effect on the spec's fields
depends on `result` or `schedule`, and on `draws` only through the byte a CXKK draws. -/
structure State extends Snapshot where
  /-- The parameters, fixed for the machine's life (R6). -/
  config : Config
  /-- The model's own: what the latest operation returned to its caller (R13, R128). Written by every operation and
  read by none. -/
  result : Result
  /-- The model's own: how many bytes CXKK has drawn, the argument of the free value `Config.freeByte` (R176). -/
  draws : Nat
  /-- The model's own: the operations the host performs next, in order; when the list is empty the driver calls
  `step()` (R7, R8). Any finite interleaving of the agents is some such list. -/
  schedule : List Operation
deriving DecidableEq, Repr

/-- Why the machine stops with a fault. -/
inductive Fault where
  /-- Raised by 2NNN and 00EE when `sp` is above 16, a value R32 calls not legal: no state reached from reset has it
  and `import_state` may not install it (R290). DESIGN CHOICE (log entry 10), safe: the model stops where the spec gives
  the instruction no effect. -/
  | stackPointerIllegal
deriving DecidableEq, Repr

/-- Why the model gives no meaning. -/
inductive Refusal where
  /-- Raised by no instruction: every arm of `exec` has its meaning. Safe: nothing is claimed of an instruction
  rejected so. -/
  | notModelled (mnemonic : String)
  /-- Raised by the host operation `import_state` given a state that is not well-typed, a move the host does not
  have (R290, R292). DESIGN CHOICE (log entry 10), safe: the model stops where the spec allows no move. -/
  | importIllTyped
deriving DecidableEq, Repr

/-- Every field of the spec's state after `reset()` on a machine with the given parameters (R50, R340). `memory` lists nothing: an unlisted address reads as
its reset contents, the font below 0x050 and zero above (R50). -/
def Snapshot.reset (c : Config) : Snapshot where
  memory := []
  v := Vector.replicate 16 0
  i := 0x0000
  pc := 0x0200
  stack := Vector.replicate 16 0
  sp := 0
  delayTimer := 0
  soundTimer := 0
  videoMemory := Video.dark c.schip
  extendedGraphicsMode := false
  key := Vector.replicate 16 false
  refreshScreen := false
  r := Vector.replicate 8 0

/-- A machine with the given parameters right after reset, no byte drawn and the driver about to call `step()` (R50,
R340; log entries 1, 5, 6). -/
def State.resetWith (c : Config) : State where
  toSnapshot := Snapshot.reset c
  config := c
  result := .ok
  draws := 0
  schedule := []

/-- The machine right after reset, with the default parameters (R50, R340; log entries 2, 3, 4). -/
def State.reset : State := State.resetWith defaultConfig

end Sys2Proof.Machine
end

