-- ==== Sys2Proof/Machine/Memory.lean ====
section
/-!
DEFINITION. Reading and writing `memory`: spec/20_memory.md R60 to R69. Every function takes `fill`, what an address
that is not listed reads as.
-/
namespace Sys2Proof.Machine

/-- `MEM_SIZE` (R6). -/
def memorySize : Nat := 0x1000

/-- `PROG_BASE`, where a program is loaded and the entry point (R6, R67). -/
def programBase : Nat := 0x200

/-- `PROG_MAX`, the largest program `load_program` accepts (R6, R281). -/
def programMax : Nat := 3584

/-- What an address nothing has written reads as: the reset contents, the font at 0x000 to 0x04F and zero above
(R50). -/
def resetByte (c : Config) (a : Nat) : Byte :=
  if h : a < 80 then c.font[a] else 0

/-- `MemRead(a, 1)` (R60). -/
def Memory.read (fill : Nat → Byte) : Memory → Nat → Byte
  | [], a => fill a
  | (k, b) :: rest, a => if k = a then b else Memory.read fill rest a

/-- `MemWrite(a, 1, b)` (R60), keeping the canonical form. -/
def Memory.write (fill : Nat → Byte) : Memory → Nat → Byte → Memory
  | [], a, b => if b = fill a then [] else [(a, b)]
  | (k, c) :: rest, a, b =>
    if a < k then
      if b = fill a then (k, c) :: rest else (a, b) :: (k, c) :: rest
    else if a = k then
      if b = fill a then rest else (a, b) :: rest
    else (k, c) :: Memory.write fill rest a b

/-- The bytes at `a`, `a + 1`, ..., written one at a time at ascending addresses (R62). -/
def Memory.writeAll (fill : Nat → Byte) (m : Memory) (a : Nat) : List Byte → Memory
  | [] => m
  | b :: bs => Memory.writeAll fill (Memory.write fill m a b) (a + 1) bs

/-- The `n` bytes at `a` to `a + n - 1`, in ascending order (R62). -/
def Memory.readAll (fill : Nat → Byte) (m : Memory) (a : Nat) : Nat → List Byte
  | 0 => []
  | n + 1 => Memory.read fill m a :: Memory.readAll fill m (a + 1) n

/-- The canonical form from address `low` on: addresses strictly rising from `low`, all below 0x1000, no entry equal
to what an unlisted address reads as. -/
def Memory.wfFrom (fill : Nat → Byte) : Nat → Memory → Bool
  | _, [] => true
  | low, (k, b) :: rest =>
    decide (low ≤ k) && decide (k < memorySize) && decide (b ≠ fill k) && Memory.wfFrom fill (k + 1) rest

/-- The one canonical form of `memory`: equal memories are equal lists. -/
def Memory.wf (fill : Nat → Byte) (m : Memory) : Bool :=
  Memory.wfFrom fill 0 m

end Sys2Proof.Machine
end

