-- ==== Sys2Proof/Machine/Ops.lean ====
section
/-!
DEFINITION. The named operations the meanings share: how an operation ends, memory through the state, the fetch, the
stack. spec/00_scope.md R13, spec/20_memory.md R60 to R68, spec/40_step_fetch_decode.md R121 and R126,
spec/60_exceptions.md R306 to R308.
-/
namespace Sys2Proof.Machine

/-! ### How an operation ends -/

/-- The operation returns `Ok` (R13). -/
def complete (s : State) : Host.Outcome State Fault Refusal :=
  .next { s with result := .ok }

/-- TAKING AN EXCEPTION, the one operation for every kind of R300: the result is delivered to the driver, and nothing
in the machine changes beyond the `pc` fetch has already advanced (R126, R306). There is no vector, no saved register
and no mode (R307). The machine goes on: a fault leaves no mark that a later operation reads (R308), so the next
operation starts from this state. There is no return from an exception (R308). -/
def raise (kind : Result) (s : State) : Host.Outcome State Fault Refusal :=
  .next { s with result := kind }

/-! ### Memory through the state -/

/-- The byte of `memory` at address `a` (R60). -/
def State.byteAt (s : State) (a : Nat) : Byte :=
  Memory.read (resetByte s.config) s.memory a

/-- The `n` bytes at `a` to `a + n - 1`. -/
def State.bytesAt (s : State) (a n : Nat) : List Byte :=
  Memory.readAll (resetByte s.config) s.memory a n

/-- `memory` after the bytes are stored from `a` on, at ascending addresses (R62). -/
def State.storeBytes (s : State) (a : Nat) (bytes : List Byte) : State :=
  { s with memory := Memory.writeAll (resetByte s.config) s.memory a bytes }

/-- The lowest address above 0xFFF among the `n` addresses from `a` on, when there is one: the access is then not
performed (R60, R68). Addresses never wrap. -/
def outOfRange (a n : Nat) : Option Nat :=
  if 0 < n ∧ memorySize < a + n then some (max a memorySize) else none

/-! ### The active grid -/

/-- `W` (R39). -/
def State.width (s : State) : Nat := gridWidth s.extendedGraphicsMode

/-- `H` (R39). -/
def State.height (s : State) : Nat := gridHeight s.extendedGraphicsMode

/-- `pix(x, y)` of the active grid (R46). -/
def State.pix (s : State) (x y : Nat) : Bool := s.videoMemory.pix s.width s.height x y

/-- The output `playBeep`, derived from `soundTimer` and not stored (R37, C3). -/
def State.playBeep (s : State) : Bool := s.soundTimer != 0

/-! ### Fetch -/

/-- The word at `pc`, big-endian (R61, R121). -/
def State.fetchWord (s : State) : Word :=
  wordOfBytes (s.byteAt s.pc.toNat) (s.byteAt (s.pc.toNat + 1))

/-- `pc` advanced past the instruction, before decode and execute (R121). -/
def State.advance (s : State) : State := { s with pc := s.pc + 2 }

/-! ### The call stack -/

/-- Push `pc` and continue at `target` (R141); `sp` above 16 is no legal value (R32). -/
def call (target : Word) (s : State) : Host.Outcome State Fault Refusal :=
  if h : s.sp.toNat < 16 then
    complete { s with stack := s.stack.set s.sp.toNat s.pc, sp := s.sp + 1, pc := target }
  else if s.sp.toNat = 16 then raise .stackOverflow s
  else .fault .stackPointerIllegal

/-- Pop `pc`; the entry is not erased (R143). -/
def returnFromCall (s : State) : Host.Outcome State Fault Refusal :=
  if s.sp.toNat = 0 then raise .stackUnderflow s
  else if h : s.sp.toNat ≤ 16 then
    complete { s with pc := s.stack[s.sp.toNat - 1], sp := s.sp - 1 }
  else .fault .stackPointerIllegal

end Sys2Proof.Machine
end

