-- ==== Sys2Proof/Machine/Operands.lean ====
section
/-!
DEFINITION. The operand forms: V registers, blocks of registers, addresses through `I`, skips, the key vector.
spec/10_state.md R21 to R26, spec/43_index_memory.md R189, spec/41_control_flow.md R144, spec/45_keypad.md R219.
-/
namespace Sys2Proof.Machine

/-- `V[x]` (R12). -/
def State.getV (s : State) (x : Reg) : Byte := s.v[x.val]

/-- `V[x] <- b` (R12). -/
def State.setV (s : State) (x : Reg) (b : Byte) : State :=
  { s with v := s.v.set x.val b }

/-- `VF`, register 15 (R23). -/
def regF : Reg := 15

/-- The result in `V[x]`, then the flag in VF: the order of R163, so that with X = 15 the flag survives. -/
def State.setVFlag (s : State) (x : Reg) (result flag : Byte) : State :=
  (s.setV x result).setV regF flag

/-- The first `n` elements of a register file, in ascending order: the block V0 to VX has `X + 1` (R22, R24). -/
def blockOf {n : Nat} (file : Vector Byte n) (count : Nat) : List Byte :=
  file.toList.take count

/-- A register file with the bytes written from register `k` on, in ascending order (R22). -/
def withBlock {n : Nat} (file : Vector Byte n) (k : Nat) : List Byte → Vector Byte n
  | [] => file
  | b :: bs => withBlock (file.setIfInBounds k b) (k + 1) bs

/-- A block of `n` bytes through `I`: `MemoryOutOfRange` when one of the addresses `I` to `I + n - 1` lies above
0xFFF, checked before anything is read or written (R68, R189). -/
def accessThroughI (n : Nat) (s : State) (effect : Nat → State) : Host.Outcome State Fault Refusal :=
  match outOfRange s.i.toNat n with
  | some a => raise (.memoryOutOfRange a) s
  | none => complete (effect s.i.toNat)

/-- `skip` when the condition holds: 2 more on the `pc` fetch has advanced (R12, R144). -/
def skipWhen (condition : Bool) (s : State) : State :=
  if condition then { s with pc := s.pc + 2 } else s

/-- `key[k]` (R38); false where there is no such key. -/
def State.keyDown (s : State) (k : Nat) : Bool :=
  if h : k < 16 then s.key[k] else false

/-- The lowest key that is down (R224). -/
def State.firstKeyDown (s : State) : Option Nat :=
  (List.range 16).find? s.keyDown

/-- A skip on the key VX names: `KeyIndexOutOfRange` when VX is above 15 (R219). -/
def skipOnKey (pressed : Bool) (x : Reg) (s : State) : Host.Outcome State Fault Refusal :=
  if 15 < (s.getV x).toNat then raise (.keyIndexOutOfRange (s.getV x)) s
  else complete (skipWhen (s.keyDown (s.getV x).toNat == pressed) s)

end Sys2Proof.Machine
end

