-- ==== Sys2Proof/Machine/Flags.lean ====
section
/-!
DEFINITION. The values the flag-writing instructions put in VF, always 0 or 1: spec/10_state.md R23 and R29.
-/
namespace Sys2Proof.Machine

/-- A flag as the byte VF receives: exactly 0x00 or 0x01 (R23). -/
def flagByte (condition : Bool) : Byte := if condition then 1 else 0

/-- Carry of an 8-bit addition, from the exact sum (R168). -/
def carryFlag (a b : Byte) : Byte := flagByte (decide (255 < a.toNat + b.toNat))

/-- No borrow in `a - b`: 1 also when they are equal (R169, R171). -/
def noBorrowFlag (a b : Byte) : Byte := flagByte (decide (b.toNat ≤ a.toNat))

/-- The bit a right shift moves out, bit 0 (R170). -/
def shiftedRightFlag (a : Byte) : Byte := flagByte (a.getLsbD 0)

/-- The bit a left shift moves out, bit 7 (R172). -/
def shiftedLeftFlag (a : Byte) : Byte := flagByte (a.getLsbD 7)

/-- The stored `I` is above 0x0FFF (R192). -/
def indexFlag (i : Word) : Byte := flagByte (decide (0x0FFF < i.toNat))

/-- A set pixel was cleared (R232). -/
def collisionFlag (collision : Bool) : Byte := flagByte collision

end Sys2Proof.Machine
end

