-- ==== Sys2Proof/Machine/ControlFlow.lean ====
section
/-!
DEFINITION. Jump, call, return, skip: spec/41_control_flow.md R140 to R150. On entry `pc` is the address of the
instruction plus 2 (spec/40_step_fetch_decode.md R121).
-/
namespace Sys2Proof.Machine

/-- 00EE (R143). -/
def execRet (s : State) : Host.Outcome State Fault Refusal := returnFromCall s

/-- 1NNN (R140). -/
def execJpNnn (nnn : Address) (s : State) : Host.Outcome State Fault Refusal :=
  complete { s with pc := nnn.setWidth 16 }

/-- 2NNN (R141). -/
def execCallNnn (nnn : Address) (s : State) : Host.Outcome State Fault Refusal := call (nnn.setWidth 16) s

/-- 3XKK (R144). -/
def execSeVxKk (x : Reg) (kk : Byte) (s : State) : Host.Outcome State Fault Refusal :=
  complete (skipWhen (s.getV x == kk) s)

/-- 4XKK (R145). -/
def execSneVxKk (x : Reg) (kk : Byte) (s : State) : Host.Outcome State Fault Refusal :=
  complete (skipWhen (s.getV x != kk) s)

/-- 5XY0 (R146). -/
def execSeVxVy (x y : Reg) (s : State) : Host.Outcome State Fault Refusal :=
  complete (skipWhen (s.getV x == s.getV y) s)

/-- 9XY0 (R148). -/
def execSneVxVy (x y : Reg) (s : State) : Host.Outcome State Fault Refusal :=
  complete (skipWhen (s.getV x != s.getV y) s)

/-- BNNN: the sum is not reduced to 12 bits, and the offset register is always V0 (R147). -/
def execJpV0Nnn (nnn : Address) (s : State) : Host.Outcome State Fault Refusal :=
  complete { s with pc := nnn.setWidth 16 + (s.getV 0).setWidth 16 }

end Sys2Proof.Machine
end

