-- ==== Sys2Proof/Machine/Display.lean ====
section
/-!
DEFINITION. Clear and sprite draw with the collision detector: spec/46_display.md R230 to R238.
-/
namespace Sys2Proof.Machine

/-- 00E0: every cell, the active grid and outside it (R230). -/
def execCls (s : State) : Host.Outcome State Fault Refusal :=
  complete { s with videoMemory := s.videoMemory.cleared, refreshScreen := true }

/-- The grid and the collision after the sprite bytes are drawn at (x0, y0) (R232). -/
def State.drawn (s : State) (x0 y0 : Byte) (sprite : List Byte) : Canvas :=
  Canvas.drawRows s.width s.height x0.toNat y0.toNat sprite ⟨s.videoMemory, false⟩

/-- The state after the sprite bytes are drawn at (x0, y0): the pixels, the refresh flag, then VF (R232). -/
def State.withSprite (s : State) (x0 y0 : Byte) (sprite : List Byte) : State :=
  let canvas := s.drawn x0 y0 sprite
  { s with videoMemory := canvas.video, refreshScreen := true }.setV regF (collisionFlag canvas.collision)

/-- DXYN: the position is read before VF is written (R232, R235); N = 0 reads nothing and cannot fault (R236). -/
def execDrwVxVyN (x y : Reg) (n : Count) (s : State) : Host.Outcome State Fault Refusal :=
  accessThroughI n.val s fun a => s.withSprite (s.getV x) (s.getV y) (s.bytesAt a n.val)

end Sys2Proof.Machine
end

