-- ==== Sys2Proof/Machine/IndexMemory.lean ====
section
/-!
DEFINITION. The index register and the loads and stores through it: spec/43_index_memory.md R189 to R202.
-/
namespace Sys2Proof.Machine

/-- ANNN (R190). -/
def execLdINnn (nnn : Address) (s : State) : Host.Outcome State Fault Refusal :=
  complete { s with i := nnn.setWidth 16 }

/-- FX1E: the flag tests the 16-bit value stored in `I` (R192). -/
def execAddIVx (x : Reg) (s : State) : Host.Outcome State Fault Refusal :=
  let n := s.i + (s.getV x).setWidth 16
  complete ({ s with i := n }.setV regF (indexFlag n))

/-- FX29: the whole byte of VX times 5 (R194). -/
def execLdFVx (x : Reg) (s : State) : Host.Outcome State Fault Refusal :=
  complete { s with i := (s.getV x).setWidth 16 * 5 }

/-- The hundreds, tens and ones digit of a byte, each a whole byte (R196). -/
def decimalDigits (a : Byte) : List Byte :=
  [BitVec.ofNat 8 (a.toNat / 100), BitVec.ofNat 8 (a.toNat / 10 % 10), BitVec.ofNat 8 (a.toNat % 10)]

/-- FX33; `I` is not changed (R196). -/
def execLdBVx (x : Reg) (s : State) : Host.Outcome State Fault Refusal :=
  accessThroughI 3 s fun a => s.storeBytes a (decimalDigits (s.getV x))

/-- FX55; `I` advances past the block (R198, R202). -/
def execLdMemVx (x : Reg) (s : State) : Host.Outcome State Fault Refusal :=
  accessThroughI (x.val + 1) s fun a =>
    { s.storeBytes a (blockOf s.v (x.val + 1)) with i := BitVec.ofNat 16 (a + x.val + 1) }

/-- FX65; `I` advances past the block (R200, R202). -/
def execLdVxMem (x : Reg) (s : State) : Host.Outcome State Fault Refusal :=
  accessThroughI (x.val + 1) s fun a =>
    { s with v := withBlock s.v 0 (s.bytesAt a (x.val + 1)), i := BitVec.ofNat 16 (a + x.val + 1) }

end Sys2Proof.Machine
end

