-- ==== Sys2Proof/Machine/Keypad.lean ====
section
/-!
DEFINITION. The keypad instructions: spec/45_keypad.md R219 to R225.
-/
namespace Sys2Proof.Machine

/-- EX9E (R220). -/
def execSkpVx (x : Reg) (s : State) : Host.Outcome State Fault Refusal := skipOnKey true x s

/-- EXA1 (R221). -/
def execSknpVx (x : Reg) (s : State) : Host.Outcome State Fault Refusal := skipOnKey false x s

/-- FX0A: the lowest key down, or back to the address of this instruction (R224). -/
def execLdVxK (x : Reg) (s : State) : Host.Outcome State Fault Refusal :=
  match s.firstKeyDown with
  | some k => complete (s.setV x (BitVec.ofNat 8 k))
  | none => complete { s with pc := s.pc - 2 }

end Sys2Proof.Machine
end

