-- ==== Sys2Proof/Machine/RegisterAlu.lean ====
section
/-!
DEFINITION. Register and ALU instructions: spec/42_register_alu.md R160 to R177. None can fault. Operands are read
before anything is written (R163).
-/
namespace Sys2Proof.Machine

/-- 6XKK (R160). -/
def execLdVxKk (x : Reg) (kk : Byte) (s : State) : Host.Outcome State Fault Refusal :=
  complete (s.setV x kk)

/-- 7XKK: 8-bit wraparound, no flag (R161). -/
def execAddVxKk (x : Reg) (kk : Byte) (s : State) : Host.Outcome State Fault Refusal :=
  complete (s.setV x (s.getV x + kk))

/-- 8XY0 (R164). -/
def execLdVxVy (x y : Reg) (s : State) : Host.Outcome State Fault Refusal :=
  complete (s.setV x (s.getV y))

/-- 8XY1, VF not written (R165). -/
def execOrVxVy (x y : Reg) (s : State) : Host.Outcome State Fault Refusal :=
  complete (s.setV x (s.getV x ||| s.getV y))

/-- 8XY2, VF not written (R166). -/
def execAndVxVy (x y : Reg) (s : State) : Host.Outcome State Fault Refusal :=
  complete (s.setV x (s.getV x &&& s.getV y))

/-- 8XY3, VF not written (R167). -/
def execXorVxVy (x y : Reg) (s : State) : Host.Outcome State Fault Refusal :=
  complete (s.setV x (s.getV x ^^^ s.getV y))

/-- 8XY4 (R168). -/
def execAddVxVy (x y : Reg) (s : State) : Host.Outcome State Fault Refusal :=
  complete (s.setVFlag x (s.getV x + s.getV y) (carryFlag (s.getV x) (s.getV y)))

/-- 8XY5, VX minus VY (R169). -/
def execSubVxVy (x y : Reg) (s : State) : Host.Outcome State Fault Refusal :=
  complete (s.setVFlag x (s.getV x - s.getV y) (noBorrowFlag (s.getV x) (s.getV y)))

/-- 8XY6: VX shifted in place, the Y field ignored (R99, R170). -/
def execShrVx (x _y : Reg) (s : State) : Host.Outcome State Fault Refusal :=
  complete (s.setVFlag x (s.getV x >>> 1) (shiftedRightFlag (s.getV x)))

/-- 8XY7, VY minus VX (R171). -/
def execSubnVxVy (x y : Reg) (s : State) : Host.Outcome State Fault Refusal :=
  complete (s.setVFlag x (s.getV y - s.getV x) (noBorrowFlag (s.getV y) (s.getV x)))

/-- 8XYE: VX shifted in place, the Y field ignored (R99, R172). -/
def execShlVx (x _y : Reg) (s : State) : Host.Outcome State Fault Refusal :=
  complete (s.setVFlag x (s.getV x <<< 1) (shiftedLeftFlag (s.getV x)))

/-- CXKK: a fresh draw, masked (R175, R176). -/
def execRndVxKk (x : Reg) (kk : Byte) (s : State) : Host.Outcome State Fault Refusal :=
  complete { s.setV x (Config.freeByte s.draws &&& kk) with draws := s.draws + 1 }

end Sys2Proof.Machine
end

