-- ==== Sys2Proof/Machine/SchipExtension.lean ====
section
/-!
DEFINITION. The Super-CHIP extension: spec/47_schip_extension.md R250 to R270. These decode only when `SCHIP` is
true.
-/
namespace Sys2Proof.Machine

/-- 00CN (R252). -/
def execScdN (n : Count) (s : State) : Host.Outcome State Fault Refusal :=
  complete { s with videoMemory := s.videoMemory.scrollDown s.width s.height n.val, refreshScreen := true }

/-- 00FB (R254). -/
def execScr (s : State) : Host.Outcome State Fault Refusal :=
  complete { s with videoMemory := s.videoMemory.scrollRight s.width s.height, refreshScreen := true }

/-- 00FC (R256). -/
def execScl (s : State) : Host.Outcome State Fault Refusal :=
  complete { s with videoMemory := s.videoMemory.scrollLeft s.width s.height, refreshScreen := true }

/-- 00FD: `ExitRequested` is delivered to the driver, and nothing changes but the advanced `pc` (R258). -/
def execExit (s : State) : Host.Outcome State Fault Refusal := raise .exitRequested s

/-- A mode instruction: the mode set, every cell cleared, also when the mode does not change (R264). -/
def setMode (extended : Bool) (s : State) : Host.Outcome State Fault Refusal :=
  complete { s with
    extendedGraphicsMode := extended, videoMemory := s.videoMemory.cleared, refreshScreen := true }

/-- 00FE (R260). -/
def execLow (s : State) : Host.Outcome State Fault Refusal := setMode false s

/-- 00FF (R262). -/
def execHigh (s : State) : Host.Outcome State Fault Refusal := setMode true s

/-- FX75: R registers above X keep their values (R266). -/
def execLdRVx (x : Reg) (s : State) : Host.Outcome State Fault Refusal :=
  complete { s with r := withBlock s.r 0 (blockOf s.v (x.val + 1)) }

/-- FX85: V registers above X keep their values (R268). -/
def execLdVxR (x : Reg) (s : State) : Host.Outcome State Fault Refusal :=
  complete { s with v := withBlock s.v 0 (blockOf s.r (x.val + 1)) }

/-- FX30: the whole byte of VX times 10 (R270). -/
def execLdHfVx (x : Reg) (s : State) : Host.Outcome State Fault Refusal :=
  complete { s with i := s.config.bigFontBase + (s.getV x).setWidth 16 * 10 }

end Sys2Proof.Machine
end

