-- ==== Sys2Proof/Machine/Timers.lean ====
section
/-!
DEFINITION. The timer instructions: spec/44_timers.md R209 to R213. None can fault.
-/
namespace Sys2Proof.Machine

/-- FX07 (R210). -/
def execLdVxDt (x : Reg) (s : State) : Host.Outcome State Fault Refusal :=
  complete (s.setV x s.delayTimer)

/-- FX15 (R211). -/
def execLdDtVx (x : Reg) (s : State) : Host.Outcome State Fault Refusal :=
  complete { s with delayTimer := s.getV x }

/-- FX18; `playBeep` follows (R212, R37). -/
def execLdStVx (x : Reg) (s : State) : Host.Outcome State Fault Refusal :=
  complete { s with soundTimer := s.getV x }

end Sys2Proof.Machine
end

