-- ==== Sys2Proof/Machine/Operations.lean ====
section
/-!
DEFINITION. The operations on the machine, the spec's `step()` among them: spec/40_step_fetch_decode.md R120 to R128,
spec/48_host_operations.md R280 to R292, spec/70_reset_and_hazards.md R340.
-/
namespace Sys2Proof.Machine

/-- `step()`: fetch, decode, execute one instruction (R120). A `pc` above 0x0FFE: no read, no change, the fault of the
lowest address outside `memory` (R121). A word that matches no pattern: `pc` stays advanced, nothing else changes
(R124). -/
def stepInstruction (s : State) : Host.Outcome State Fault Refusal :=
  if 0x0FFE < s.pc.toNat then raise (.memoryOutOfRange (max s.pc.toNat memorySize)) s
  else
    match decode s.config.schip s.fetchWord with
    | .ok i => exec i s.advance
    | .error _ => raise (.unknownInstruction s.fetchWord s.pc) s.advance

/-- `reset()`: every field of R20 from constants and the parameter `FONT`, whatever the state before (R340, R341).
The model's own fields are not of the machine: the parameters, the draws already made and the host's schedule stay
(DESIGN CHOICE, safe, log entry 7). -/
def resetMachine (s : State) : Host.Outcome State Fault Refusal :=
  complete { s with toSnapshot := Snapshot.reset s.config }

/-- `load_program(bytes)`: an oversize program changes nothing (R280, R281); a program writes its own bytes and
nothing else (R282). -/
def loadProgram (bytes : List Byte) (s : State) : Host.Outcome State Fault Refusal :=
  if programMax < bytes.length then raise (.programTooLarge bytes.length) s
  else complete (s.storeBytes programBase bytes)

/-- One timer counted down, stopping at zero (R284). -/
def countDown (t : Byte) : Byte := if t = 0 then 0 else t - 1

/-- `tick()`: both timers in one call (R284). -/
def tickTimers (s : State) : Host.Outcome State Fault Refusal :=
  complete { s with delayTimer := countDown s.delayTimer, soundTimer := countDown s.soundTimer }

/-- `write_keys(k)` (R286). -/
def writeKeys (keys : Vector Bool 16) (s : State) : Host.Outcome State Fault Refusal :=
  complete { s with key := keys }

/-- `clear_refresh()` (R288). -/
def clearRefresh (s : State) : Host.Outcome State Fault Refusal :=
  complete { s with refreshScreen := false }

/-- The value `export_state()` returns: every field of R20 (R290). -/
def State.exported (s : State) : Snapshot := s.toSnapshot

/-- `export_state()` changes nothing (R290). -/
def exportState (s : State) : Host.Outcome State Fault Refusal := complete s

/-- A snapshot `import_state` may install (R290): `memory` in its canonical form (log entry 8), as many
cells as the machine stores (R46), `sp` in 0 to 16, and with `SCHIP = false` no extended mode and no R register set. The
other fields are within their widths by their types. -/
def Snapshot.wellTyped (c : Config) (s : Snapshot) : Bool :=
  Memory.wf (resetByte c) s.memory && decide (s.sp.toNat ≤ 16) &&
    decide (s.videoMemory.size = cellCount c.schip) &&
    (c.schip || (!s.extendedGraphicsMode && decide (s.r = Vector.replicate 8 0)))

/-- `import_state(s)`: every field of R20 replaced at once (R290). An ill-typed snapshot is a move the host does not
have (R292). -/
def importState (snapshot : Snapshot) (s : State) : Host.Outcome State Fault Refusal :=
  if snapshot.wellTyped s.config then complete { s with toSnapshot := snapshot } else .refused .importIllTyped

/-- One operation, performed whole (R7). -/
def operate (op : Operation) (s : State) : Host.Outcome State Fault Refusal :=
  match op with
  | .reset => resetMachine s
  | .loadProgram bytes => loadProgram bytes s
  | .step => stepInstruction s
  | .tick => tickTimers s
  | .writeKeys keys => writeKeys keys s
  | .clearRefresh => clearRefresh s
  | .exportState => exportState s
  | .importState snapshot => importState snapshot s

end Sys2Proof.Machine
end

