-- ==== Sys2Proof/Machine/Step.lean ====
section
/-!
DEFINITION. One move of the whole machine, its agents included: the next operation of the host's schedule, or the
driver's `step()` when nothing is scheduled (spec/00_scope.md R7, R8; log entry 6).
-/
namespace Sys2Proof.Machine

/-- One move: whichever operation comes next, performed whole (R7). With an empty schedule it is the spec's `step()`,
which never ticks, never writes keys and never clears `refreshScreen` (R127, R285). -/
def step (s : State) : Host.Outcome State Fault Refusal :=
  match s.schedule with
  | [] => stepInstruction s
  | op :: rest => operate op { s with schedule := rest }

/-- The state with the instruction word `w` of `nbits` bits, big-endian, where `step` fetches its next instruction
(R61, R121), and the driver about to call `step()`. With `pc` above 0x0FFE the machine fetches nowhere, and no byte is
placed. DEDUCED (safe, log entry 12): this stands for `load_program`. -/
def State.withFetchWord (s : State) (nbits w : Nat) : State :=
  let word : Word := BitVec.ofNat 16 (w % 2 ^ nbits)
  if 0x0FFE < s.pc.toNat then s
  else { s.storeBytes s.pc.toNat [word.extractLsb' 8 8, word.extractLsb' 0 8] with schedule := [] }

end Sys2Proof.Machine
end

