-- ==== Sys2Proof/Safety.lean ====
section
/-!
DEFINITION. The terms claims are made in: well-typed states, the bounds of the states a run reaches, what each
instruction may write, and which pixels a sprite covers. spec/10_state.md R24 to R52, spec/46_display.md R231 to R234,
spec/48_host_operations.md R290.
-/
namespace Sys2Proof.Machine

/-- Every field within its range (R52's first four clauses and its last, R290): `memory` in its canonical form, as
many cells as R46 says, `sp` in 0 to 16, and with `SCHIP = false` nothing of the extension set. -/
abbrev State.WellTyped (s : State) : Prop := s.toSnapshot.wellTyped s.config = true

/-- `memory` is in its canonical form. -/
abbrev State.MemoryWf (s : State) : Prop := Memory.wf (resetByte s.config) s.memory = true

/-- Every pixel of the active grid has its cell in `videoMemory` (R46); a well-typed state has it
(`State.WellTyped.videoCovers`). -/
abbrev State.VideoCovers (s : State) : Prop := s.width * s.height ≤ s.videoMemory.size

/-- The bounds of every state reached from reset without `import_state` (R28, R52), and the cells outside the active
grid 0 (R46). -/
abbrev State.Bounded (s : State) : Prop :=
  s.pc.toNat ≤ 0x10FE ∧ (∀ k : Fin 16, k.val < s.sp.toNat → (s.stack[k.val]).toNat ≤ 0x1000) ∧
    s.videoMemory.darkOutside s.width s.height = true

/-- The operation is `import_state`, the one that can install a state no run reaches (R290). -/
def Operation.isImport : Operation → Bool
  | .importState _ => true
  | .reset => false
  | .loadProgram _ => false
  | .step => false
  | .tick => false
  | .writeKeys _ => false
  | .clearRefresh => false
  | .exportState => false

/-- The host's schedule holds no `import_state`. -/
abbrev State.NoImport (s : State) : Prop := (s.schedule.all fun op => !op.isImport) = true

/-- The next move is a `step()`: the driver's, with nothing scheduled, or one that heads the schedule (R7, R8). -/
abbrev State.StepIsNext (s : State) : Prop := s.schedule = [] ∨ s.schedule.head? = some .step

/-- The state without the head of its schedule: what a move is performed on. -/
def State.dequeued (s : State) : State := { s with schedule := s.schedule.tail }

/-- `t` is `s` after a `step()` that returned `t.result`, a fault: past the faulting instruction and nothing else, or,
raised by fetch, as before (R306). -/
def FaultIsPrecise (s t : State) : Prop :=
  (s.pc.toNat ≤ 0x0FFE → t = { s with pc := s.pc + 2, result := t.result }) ∧
    (0x0FFE < s.pc.toNat → t = { s with result := t.result } ∧ ∃ e, t.result = .memoryOutOfRange e)

/-- The cells outside the active grid of `s` are in `t` as they were, none is added, and so is `pix` outside the grid. -/
def OutsideUnchanged (s t : State) : Prop :=
  (∀ p, s.width * s.height ≤ p → t.videoMemory.cell p = s.videoMemory.cell p) ∧
    t.videoMemory.size = s.videoMemory.size ∧ ∀ x y, ¬(x < s.width ∧ y < s.height) → t.pix x y = s.pix x y

/-- What an instruction may write of each field; everything else keeps its value (R129). -/
structure Writes where
  v : Reg → Bool := fun _ => false
  i : Bool := false
  pc : Bool := false
  sp : Bool := false
  stack : Nat → Bool := fun _ => false
  delayTimer : Bool := false
  soundTimer : Bool := false
  video : Bool := false
  mode : Bool := false
  refresh : Bool := false
  r : Nat → Bool := fun _ => false
  memory : Nat → Bool := fun _ => false
  draws : Bool := false

/-- What each instruction may write, from the tables R24 (V registers), R26 (`pc` after fetch), R65 (memory) and the
instruction rules: the addresses stored to start at `I`, 3 bytes for FX33 and X + 1 bytes for FX55. -/
def writesOf (s : State) : Instr → Writes
  | .cls => { video := true, refresh := true }
  | .ret => { pc := true, sp := true }
  | .jpNnn _ => { pc := true }
  | .callNnn _ => { pc := true, sp := true, stack := fun k => k == s.sp.toNat }
  | .seVxKk _ _ => { pc := true }
  | .sneVxKk _ _ => { pc := true }
  | .seVxVy _ _ => { pc := true }
  | .ldVxKk x _ => { v := fun k => k == x }
  | .addVxKk x _ => { v := fun k => k == x }
  | .ldVxVy x _ => { v := fun k => k == x }
  | .orVxVy x _ => { v := fun k => k == x }
  | .andVxVy x _ => { v := fun k => k == x }
  | .xorVxVy x _ => { v := fun k => k == x }
  | .addVxVy x _ => { v := fun k => k == x || k == 15 }
  | .subVxVy x _ => { v := fun k => k == x || k == 15 }
  | .shrVx x _ => { v := fun k => k == x || k == 15 }
  | .subnVxVy x _ => { v := fun k => k == x || k == 15 }
  | .shlVx x _ => { v := fun k => k == x || k == 15 }
  | .sneVxVy _ _ => { pc := true }
  | .ldINnn _ => { i := true }
  | .jpV0Nnn _ => { pc := true }
  | .rndVxKk x _ => { v := fun k => k == x, draws := true }
  | .drwVxVyN _ _ _ => { v := fun k => k == 15, video := true, refresh := true }
  | .skpVx _ => { pc := true }
  | .sknpVx _ => { pc := true }
  | .ldVxDt x => { v := fun k => k == x }
  | .ldVxK x => { pc := true, v := fun k => k == x }
  | .ldDtVx _ => { delayTimer := true }
  | .ldStVx _ => { soundTimer := true }
  | .addIVx _ => { i := true, v := fun k => k == 15 }
  | .ldFVx _ => { i := true }
  | .ldBVx _ => { memory := fun a => decide (s.i.toNat ≤ a ∧ a < s.i.toNat + 3) }
  | .ldMemVx x => { i := true, memory := fun a => decide (s.i.toNat ≤ a ∧ a < s.i.toNat + (x.val + 1)) }
  | .ldVxMem x => { i := true, v := fun k => decide (k.val ≤ x.val) }
  | .scdN _ => { video := true, refresh := true }
  | .scr => { video := true, refresh := true }
  | .scl => { video := true, refresh := true }
  | .exit => {}
  | .low => { video := true, refresh := true, mode := true }
  | .high => { video := true, refresh := true, mode := true }
  | .ldHfVx _ => { i := true }
  | .ldRVx x => { r := fun k => decide (k ≤ x.val) }
  | .ldVxR x => { v := fun k => decide (k.val ≤ x.val) }

/-- `t` agrees with `s` wherever `w` allows no write. `key`, the parameters and the host's schedule are never
written. `result` is what the operation returned and is stated apart. -/
def Unchanged (w : Writes) (s t : State) : Prop :=
  (∀ k : Reg, w.v k = false → t.getV k = s.getV k) ∧
  (w.i = false → t.i = s.i) ∧
  (w.pc = false → t.pc = s.pc) ∧
  (w.sp = false → t.sp = s.sp) ∧
  (∀ k : Fin 16, w.stack k.val = false → t.stack[k.val] = s.stack[k.val]) ∧
  (w.delayTimer = false → t.delayTimer = s.delayTimer) ∧
  (w.soundTimer = false → t.soundTimer = s.soundTimer) ∧
  (w.video = false → t.videoMemory = s.videoMemory) ∧
  (w.mode = false → t.extendedGraphicsMode = s.extendedGraphicsMode) ∧
  (w.refresh = false → t.refreshScreen = s.refreshScreen) ∧
  (∀ k : Fin 8, w.r k.val = false → t.r[k.val] = s.r[k.val]) ∧
  (∀ a : Nat, w.memory a = false → t.byteAt a = s.byteAt a) ∧
  (w.draws = false → t.draws = s.draws) ∧
  t.key = s.key ∧ t.config = s.config ∧ t.schedule = s.schedule

/-- Display row y, column x is the target of a 1 bit of the `n`-row sprite at `I`, drawn at (x0, y0): the bit is bit
7 - c of the byte at `I + r`, the target ((x0 + c) mod W, (y0 + r) mod H) (R231, R234). -/
def SpriteCovers (s : State) (x0 y0 : Byte) (n x y : Nat) : Prop :=
  ∃ r c : Nat, r < n ∧ c < 8 ∧ x = (x0.toNat + c) % s.width ∧ y = (y0.toNat + r) % s.height ∧
    (s.byteAt (s.i.toNat + r)).getLsbD (7 - c) = true

end Sys2Proof.Machine
end

