-- ==== Sys2Proof/Certificates/Slice0/Obligations.lean ====
section
/-!
DEFINITION. The statements for the provers. Each docstring names the rules of spec/ it formalises. In a statement about
one instruction, `s` is the state fetch leaves: `pc` is already the address of the instruction plus 2 (R121).
-/

open Sys2Proof Sys2Proof.Machine

/-! ### Encoding -/

/-- Decoding the bytes of any well-formed instruction gives it back with the bytes after it, every operand at every
value (R92, R94, R97, R98, R112); an extension instruction when `SCHIP` is true. -/
def Obligations.DecodeOfEncode : Prop :=
  ∀ (schip : Bool) (i : Instr) (rest : List Byte), i.wellFormed = true → (i.isExtension = true → schip = true) →
    decodeBytes schip (encodeBytes i ++ rest) = .ok (i, rest)

/-- Each legal word has one meaning and no bit of it is dropped: encoding what a word decodes to gives the word (R94,
R97, R98), and the decoded term is well-formed and of the extension only when `SCHIP` is true. -/
def Obligations.EncodeOfDecode : Prop :=
  ∀ (schip : Bool) (w : Word) (i : Instr), decode schip w = .ok i →
    encode i = w ∧ i.wellFormed = true ∧ (i.isExtension = true → schip = true)

/-- No word matches two rows of the opcode map (R94), which has 34 base rows and 9 more with `SCHIP` true (R97, R98). -/
def Obligations.OpcodeRowsDisjoint : Prop :=
  ∀ w : Word,
    (patterns true w).Pairwise (fun p q => ¬(w &&& p.mask = p.value ∧ w &&& q.mask = q.value)) ∧
    (patterns false w).length = 34 ∧ (patterns true w).length = 43

/-- The illegal words with `SCHIP` false are exactly those of R100's table, family by family. -/
def Obligations.BaseIllegalWords : Prop :=
  ∀ w : Word,
    let family := w.toNat / 4096
    let kk := w.toNat % 256
    let n := w.toNat % 16
    decode false w = .error (.unknownInstruction w) ↔
      (family = 0x0 ∧ w.toNat ≠ 0x00E0 ∧ w.toNat ≠ 0x00EE) ∨
      (family = 0x5 ∧ n ≠ 0) ∨
      (family = 0x8 ∧ (n = 8 ∨ n = 9 ∨ n = 0xA ∨ n = 0xB ∨ n = 0xC ∨ n = 0xD ∨ n = 0xF)) ∨
      (family = 0x9 ∧ n ≠ 0) ∨
      (family = 0xE ∧ kk ≠ 0x9E ∧ kk ≠ 0xA1) ∨
      (family = 0xF ∧ kk ≠ 0x07 ∧ kk ≠ 0x0A ∧ kk ≠ 0x15 ∧ kk ≠ 0x18 ∧ kk ≠ 0x1E ∧ kk ≠ 0x29 ∧ kk ≠ 0x33 ∧
        kk ≠ 0x55 ∧ kk ≠ 0x65)

/-- The words the extension adds: 0x00C0 to 0x00CF, 0x00FB to 0x00FF, FX30 for every X, FX75 and FX85 for X at most 7.
They are illegal with `SCHIP` false, and every other word decodes the same either way (R98, R100). -/
def Obligations.ExtensionWords : Prop :=
  ∀ w : Word,
    let added :=
      (0x00C0 ≤ w.toNat ∧ w.toNat ≤ 0x00CF) ∨ (0x00FB ≤ w.toNat ∧ w.toNat ≤ 0x00FF) ∨
      (w.toNat / 4096 = 0xF ∧ (w.toNat % 256 = 0x30 ∨
        ((w.toNat % 256 = 0x75 ∨ w.toNat % 256 = 0x85) ∧ w.toNat / 256 % 16 ≤ 7)))
    ((∃ i, decode true w = .ok i ∧ i.isExtension = true) ↔ added) ∧
    (added → decode false w = .error (.unknownInstruction w)) ∧
    (¬added → decode true w = decode false w)

/-- One word of each family 0x0 to 0xF, and two of the extension, written out from its row, decodes to its instruction
(R14, R97, R98). -/
def Obligations.SampleWordsDecode : Prop :=
  decode false 0x00E0 = .ok .cls ∧ decode false 0x1234 = .ok (.jpNnn 0x234) ∧
  decode false 0x2BCD = .ok (.callNnn 0xBCD) ∧ decode false 0x3210 = .ok (.seVxKk 2 0x10) ∧
  decode false 0x4F81 = .ok (.sneVxKk 0xF 0x81) ∧ decode false 0x5120 = .ok (.seVxVy 1 2) ∧
  decode false 0x6A05 = .ok (.ldVxKk 0xA 0x05) ∧ decode false 0x71FE = .ok (.addVxKk 1 0xFE) ∧
  decode false 0x8344 = .ok (.addVxVy 3 4) ∧ decode false 0x9C70 = .ok (.sneVxVy 0xC 7) ∧
  decode false 0xA300 = .ok (.ldINnn 0x300) ∧ decode false 0xB2FE = .ok (.jpV0Nnn 0x2FE) ∧
  decode false 0xC30F = .ok (.rndVxKk 3 0x0F) ∧ decode false 0xD012 = .ok (.drwVxVyN 0 1 2) ∧
  decode false 0xE19E = .ok (.skpVx 1) ∧ decode false 0xF307 = .ok (.ldVxDt 3) ∧
  decode false 0xF255 = .ok (.ldMemVx 2) ∧ decode true 0x00C1 = .ok (.scdN 1) ∧
  decode true 0xF175 = .ok (.ldRVx 1)

/-! ### The step -/

/-- `pc` at most 0x0FFE: when the two bytes at `pc`, big-endian, decode to `i`, the operation `step()` is `exec i` on the
state with `pc` advanced by 2, whatever the host's schedule holds; and a move whose next operation is a `step()`, called
by the driver or at the head of the schedule, is that (R7, R8, R61, R120, R121, R125). -/
def Obligations.StepRunsDecodedInstruction : Prop :=
  ∀ (s : State) (i : Instr), s.pc.toNat ≤ 0x0FFE →
    decode s.config.schip (s.byteAt s.pc.toNat ++ s.byteAt (s.pc.toNat + 1)) = .ok i →
    operate .step s = exec i { s with pc := s.pc + 2 } ∧
    (s.StepIsNext → step s = exec i { s.dequeued with pc := s.pc + 2 }) ∧
    (s.pc + 2).toNat = s.pc.toNat + 2

/-- A scheduled operation is performed next, on the state without it in the schedule (R7, R8; the schedule is the
model's own, log entry 6). -/
def Obligations.StepPerformsScheduledOperation : Prop :=
  ∀ (s : State) (op : Operation) (rest : List Operation), s.schedule = op :: rest →
    step s = operate op { s with schedule := rest }

/-- An unknown word: the result carries the word and the address it was fetched from, `pc` stays advanced, and nothing
else changes; for the operation `step()` whatever the schedule holds, and for every move that is a `step()` (R124). -/
def Obligations.StepOnUnknownInstruction : Prop :=
  ∀ (s : State) (e : Reject), s.pc.toNat ≤ 0x0FFE →
    decode s.config.schip (s.byteAt s.pc.toNat ++ s.byteAt (s.pc.toNat + 1)) = .error e →
    let result := Result.unknownInstruction (s.byteAt s.pc.toNat ++ s.byteAt (s.pc.toNat + 1)) s.pc
    operate .step s = .next { s with pc := s.pc + 2, result } ∧
    (s.StepIsNext → step s = .next { s.dequeued with pc := s.pc + 2, result })

/-- A fetch above 0x0FFE changes nothing and reports 0x1000 for `pc = 0x0FFF`, else `pc`; a later `step()` from the state
it leaves answers that state again; for the operation `step()` whatever the schedule holds, and for every move that is a
`step()` (R121). -/
def Obligations.FetchOutOfRangeIsFixedPoint : Prop :=
  ∀ s : State, 0x0FFE < s.pc.toNat →
    ∃ t, t = { s with result := .memoryOutOfRange (if s.pc.toNat = 0x0FFF then 0x1000 else s.pc.toNat) } ∧
      operate .step s = .next t ∧ operate .step t = .next t ∧
      (s.StepIsNext → step s = .next t.dequeued)

/-- A next instruction 1NNN that jumps to itself leaves the whole state, the step returning `Ok` (R352, R140). -/
def Obligations.SelfJumpIsFixedPoint : Prop :=
  ∀ s : State, s.pc.toNat ≤ 0x0FFE →
    (s.byteAt s.pc.toNat ++ s.byteAt (s.pc.toNat + 1)).toNat = 0x1000 + s.pc.toNat →
    operate .step s = .next { s with result := .ok } ∧
    (s.StepIsNext → step s = .next { s.dequeued with result := .ok })

/-- What a step never does, over all instructions: it never writes `key`, never clears `refreshScreen`, and never
changes a timer but by FX15 and FX18, which write VX (R35, R36, R38, R127); for the operation `step()` whatever the
schedule holds, and for every move that is a `step()`. -/
def Obligations.StepLeavesInputsAndTimers : Prop :=
  ∀ s t : State, (operate .step s = .next t ∨ s.StepIsNext ∧ step s = .next t) →
    t.key = s.key ∧ (s.refreshScreen = true → t.refreshScreen = true) ∧
    (t.delayTimer = s.delayTimer ∨ ∃ x, decode s.config.schip s.fetchWord = .ok (.ldDtVx x) ∧
      t.delayTimer = s.getV x) ∧
    (t.soundTimer = s.soundTimer ∨ ∃ x, decode s.config.schip s.fetchWord = .ok (.ldStVx x) ∧
      t.soundTimer = s.getV x)

/-- No operation writes the machine's parameters, and a step takes at most the head of the schedule (R6, R250; the
schedule is the model's own, log entry 6). -/
def Obligations.ParametersAreFixed : Prop :=
  ∀ s t : State, step s = .next t → t.config = s.config ∧ t.schedule = s.schedule.tail

/-- The field `result` is an output only: whatever it holds, the machine does the same (R48, R308; the field is the
model's own, log entry 1). -/
def Obligations.ResultIsOutputOnly : Prop :=
  ∀ (s : State) (k : Result), step { s with result := k } = step s

/-! ### Invariants of every move -/

/-- The state after reset is well-typed and within the bounds of a run, whatever the machine's parameters are, `SCHIP`
false among them (R50, R52). The model's choices in it: memory's canonical form (log entry 8), the empty schedule, on
which the last clause rests (log entry 6), and the parameters `State.reset` takes (log entries 2, 3, 4). -/
def Obligations.ResetIsWellTypedAndBounded : Prop :=
  (∀ c : Config, (State.resetWith c).config = c ∧ (State.resetWith c).WellTyped ∧ (State.resetWith c).VideoCovers ∧
    (State.resetWith c).Bounded ∧ (State.resetWith c).NoImport) ∧
  State.reset = State.resetWith defaultConfig

/-- Every move keeps the state well-typed: `memory` in its canonical form, as many cells as the machine stores (8192, or
2048 with `SCHIP` false), `sp` in 0 to 16, nothing of the extension set when `SCHIP` is false; and so every pixel of the
active grid has its cell (R46, R52, R290; the canonical form is the model's, log entry 8). -/
def Obligations.StepKeepsWellTyped : Prop :=
  ∀ s t : State, s.WellTyped → step s = .next t → t.WellTyped ∧ t.VideoCovers

/-- Every move without `import_state` keeps the bounds R28 and R52 give: `pc` at most 0x10FE, each stack entry in use
at most 0x1000, and the cells outside the active grid 0 (R46). -/
def Obligations.StepKeepsBounds : Prop :=
  ∀ s t : State, s.WellTyped → s.Bounded → s.NoImport → step s = .next t → t.Bounded ∧ t.NoImport

/-- From a well-typed state the machine never stops: every move answers a next state, unless the host imports an
ill-typed snapshot, a move it does not have (R127, R290, R292). -/
def Obligations.WellTypedMachineNeverStops : Prop :=
  ∀ s : State, s.WellTyped →
    (∀ snapshot rest, s.schedule = .importState snapshot :: rest → snapshot.wellTyped s.config = true) →
    ∃ t, step s = .next t ∧ t.WellTyped

/-! ### Faults -/

/-- Every result of execute but `Ok` leaves every field as it was, `pc` advanced by fetch alone (R126). -/
def Obligations.ExecuteFaultsArePrecise : Prop :=
  ∀ (i : Instr) (s t : State), exec i s = .next t → t.result ≠ .ok → t = { s with result := t.result }

/-- The state after a fault of the step: raised in decode or execute, `pc` is the address of the faulting instruction
plus 2 and every other field as before; raised by fetch, the whole state as before (`FaultIsPrecise`, R306); for the
operation `step()` whatever the schedule holds, and for every move that is a `step()`. -/
def Obligations.StepFaultsArePrecise : Prop :=
  ∀ s t : State, t.result ≠ .ok →
    (operate .step s = .next t → FaultIsPrecise s t) ∧
    (s.StepIsNext → step s = .next t → FaultIsPrecise s.dequeued t)

/-- Which instruction raises which kind and exactly when, over all instructions and states (R300, R314). -/
def Obligations.FaultKindsAndConditions : Prop :=
  ∀ (i : Instr) (s t : State), exec i s = .next t →
    (t.result = .stackOverflow ↔ (∃ nnn, i = .callNnn nnn) ∧ s.sp.toNat = 16) ∧
    (t.result = .stackUnderflow ↔ i = .ret ∧ s.sp.toNat = 0) ∧
    (∀ e, t.result = .memoryOutOfRange e ↔ e = max s.i.toNat 0x1000 ∧
      ((∃ x, i = .ldBVx x ∧ 0xFFF < s.i.toNat + 2) ∨
       (∃ x : Reg, (i = .ldMemVx x ∨ i = .ldVxMem x) ∧ 0xFFF < s.i.toNat + x.val) ∨
       (∃ (x y : Reg) (n : Count), i = .drwVxVyN x y n ∧ 0 < n.val ∧ 0xFFF < s.i.toNat + n.val - 1))) ∧
    (∀ v, t.result = .keyIndexOutOfRange v ↔
      ∃ x, (i = .skpVx x ∨ i = .sknpVx x) ∧ v = s.getV x ∧ 15 < v.toNat) ∧
    (t.result = .exitRequested ↔ i = .exit) ∧
    (∀ op a, t.result ≠ .unknownInstruction op a) ∧ (∀ n, t.result ≠ .programTooLarge n)

/-- No instruction is refused, and the only stop is 2NNN or 00EE with `sp` above 16, a value R32 calls not legal. -/
def Obligations.OnlyIllegalStackPointerStops : Prop :=
  ∀ (i : Instr) (s : State),
    (∀ r, exec i s ≠ .refused r) ∧
    ((∃ f, exec i s = .fault f) ↔ (i = .ret ∨ ∃ nnn, i = .callNnn nnn) ∧ 16 < s.sp.toNat)

/-! ### The frame -/

/-- Every field not named in an instruction's rule is unchanged (R129), for all 43 instructions and every operand form:
V registers by R24, `pc` after fetch by R26, memory by R65 (the bytes at `I` to `I + 2` for FX33, `I` to `I + X` for
FX55, none for the others), and the rest by the instruction rules (`writesOf`). -/
def Obligations.FrameOfEveryInstruction : Prop :=
  ∀ (i : Instr) (s t : State), exec i s = .next t → Unchanged (writesOf s i) s t

/-! ### Control flow -/

/-- 1NNN and BNNN: the new `pc`, the sum of BNNN not reduced to 12 bits (R140, R147). -/
def Obligations.JumpTargets : Prop :=
  ∀ (s : State) (nnn : Address),
    (∃ t, exec (.jpNnn nnn) s = .next t ∧ t.pc.toNat = nnn.toNat ∧ t = { s with pc := t.pc, result := .ok }) ∧
    (∃ t, exec (.jpV0Nnn nnn) s = .next t ∧ t.pc.toNat = nnn.toNat + (s.getV 0).toNat ∧
      t = { s with pc := t.pc, result := .ok })

/-- 2NNN: the advanced `pc` is pushed at `stack[sp]` and `sp` rises by 1; with all 16 entries in use, `StackOverflow`
and nothing written (R141). -/
def Obligations.CallPushesReturnAddress : Prop :=
  ∀ (s : State) (nnn : Address),
    (s.sp.toNat < 16 → ∃ t, exec (.callNnn nnn) s = .next t ∧ t.pc.toNat = nnn.toNat ∧
      t.sp.toNat = s.sp.toNat + 1 ∧
      (∀ k : Fin 16, t.stack[k.val] = if k.val = s.sp.toNat then s.pc else s.stack[k.val]) ∧
      t = { s with pc := t.pc, sp := t.sp, stack := t.stack, result := .ok }) ∧
    (s.sp.toNat = 16 → exec (.callNnn nnn) s = .next { s with result := .stackOverflow })

/-- 00EE: `pc` is `stack[sp - 1]` and `sp` falls by 1, the entry not erased; with the stack empty, `StackUnderflow`
(R143). -/
def Obligations.ReturnPopsStack : Prop :=
  ∀ s : State,
    (∀ k : Fin 16, s.sp.toNat = k.val + 1 → ∃ t, exec .ret s = .next t ∧ t.pc = s.stack[k.val] ∧
      t.sp.toNat = k.val ∧ t = { s with pc := t.pc, sp := t.sp, result := .ok }) ∧
    (s.sp.toNat = 0 → exec .ret s = .next { s with result := .stackUnderflow })

/-- A return right after a call comes back to the instruction after the call with the old `sp` (R141, R143). -/
def Obligations.ReturnUndoesCall : Prop :=
  ∀ (s t : State) (nnn : Address), s.sp.toNat < 16 → exec (.callNnn nnn) s = .next t →
    ∃ u, exec .ret t = .next u ∧ u = { s with stack := t.stack, result := .ok }

/-- 3XKK, 4XKK, 5XY0, 9XY0: 2 more on the advanced `pc` exactly when the condition holds (R144, R145, R146, R148). -/
def Obligations.ConditionalSkips : Prop :=
  ∀ (s : State) (x y : Reg) (kk : Byte),
    (∃ t, exec (.seVxKk x kk) s = .next t ∧
      t.pc.toNat = (if (s.getV x).toNat = kk.toNat then (s.pc.toNat + 2) % 65536 else s.pc.toNat) ∧
      t = { s with pc := t.pc, result := .ok }) ∧
    (∃ t, exec (.sneVxKk x kk) s = .next t ∧
      t.pc.toNat = (if (s.getV x).toNat ≠ kk.toNat then (s.pc.toNat + 2) % 65536 else s.pc.toNat) ∧
      t = { s with pc := t.pc, result := .ok }) ∧
    (∃ t, exec (.seVxVy x y) s = .next t ∧
      t.pc.toNat = (if (s.getV x).toNat = (s.getV y).toNat then (s.pc.toNat + 2) % 65536 else s.pc.toNat) ∧
      t = { s with pc := t.pc, result := .ok }) ∧
    (∃ t, exec (.sneVxVy x y) s = .next t ∧
      t.pc.toNat = (if (s.getV x).toNat ≠ (s.getV y).toNat then (s.pc.toNat + 2) % 65536 else s.pc.toNat) ∧
      t = { s with pc := t.pc, result := .ok })

/-! ### Registers and ALU -/

/-- 6XKK, 7XKK and 8XY0: the destination holds the constant, the sum modulo 256, or the source; every other V register,
VF too unless it is the destination, keeps its value (R160, R161, R164). -/
def Obligations.LoadsAndAddConstant : Prop :=
  ∀ (s : State) (x y : Reg) (kk : Byte),
    (∃ t, exec (.ldVxKk x kk) s = .next t ∧ t.getV x = kk ∧ (∀ k, k ≠ x → t.getV k = s.getV k) ∧
      t = { s with v := t.v, result := .ok }) ∧
    (∃ t, exec (.addVxKk x kk) s = .next t ∧ (t.getV x).toNat = ((s.getV x).toNat + kk.toNat) % 256 ∧
      (∀ k, k ≠ x → t.getV k = s.getV k) ∧ t = { s with v := t.v, result := .ok }) ∧
    (∃ t, exec (.ldVxVy x y) s = .next t ∧ t.getV x = s.getV y ∧ (∀ k, k ≠ x → t.getV k = s.getV k) ∧
      t = { s with v := t.v, result := .ok })

/-- 8XY1, 8XY2, 8XY3, bit by bit; VF is not written unless it is the destination (R165, R166, R167). -/
def Obligations.BitwiseForms : Prop :=
  ∀ (s : State) (x y : Reg),
    (∃ t, exec (.orVxVy x y) s = .next t ∧
      (∀ b, (t.getV x).getLsbD b = ((s.getV x).getLsbD b || (s.getV y).getLsbD b)) ∧
      (∀ k, k ≠ x → t.getV k = s.getV k) ∧ t = { s with v := t.v, result := .ok }) ∧
    (∃ t, exec (.andVxVy x y) s = .next t ∧
      (∀ b, (t.getV x).getLsbD b = ((s.getV x).getLsbD b && (s.getV y).getLsbD b)) ∧
      (∀ k, k ≠ x → t.getV k = s.getV k) ∧ t = { s with v := t.v, result := .ok }) ∧
    (∃ t, exec (.xorVxVy x y) s = .next t ∧
      (∀ b, (t.getV x).getLsbD b = ((s.getV x).getLsbD b ^^ (s.getV y).getLsbD b)) ∧
      (∀ k, k ≠ x → t.getV k = s.getV k) ∧ t = { s with v := t.v, result := .ok })

/-- 8XY4: the sum modulo 256 in VX, then the carry in VF, so that with X = 15 VF ends holding the carry: the
order of R163, which the spec marks as its own decision D11 (R168). -/
def Obligations.AddWithCarryOut : Prop :=
  ∀ (s : State) (x y : Reg),
    ∃ t, exec (.addVxVy x y) s = .next t ∧
      (x ≠ 15 → (t.getV x).toNat = ((s.getV x).toNat + (s.getV y).toNat) % 256) ∧
      (t.getV 15).toNat = (if (s.getV x).toNat + (s.getV y).toNat > 255 then 1 else 0) ∧
      (∀ k, k ≠ x → k ≠ 15 → t.getV k = s.getV k) ∧ t = { s with v := t.v, result := .ok }

/-- 8XY5 and 8XY7: the difference modulo 256 in VX, then 1 in VF when no borrow is needed, equal operands included
(R163, R169, R171). -/
def Obligations.SubtractsWithNotBorrow : Prop :=
  ∀ (s : State) (x y : Reg),
    (∃ t, exec (.subVxVy x y) s = .next t ∧
      (x ≠ 15 → ((t.getV x).toNat : Int) = ((s.getV x).toNat - (s.getV y).toNat : Int) % 256) ∧
      (t.getV 15).toNat = (if (s.getV x).toNat ≥ (s.getV y).toNat then 1 else 0) ∧
      (∀ k, k ≠ x → k ≠ 15 → t.getV k = s.getV k) ∧ t = { s with v := t.v, result := .ok }) ∧
    (∃ t, exec (.subnVxVy x y) s = .next t ∧
      (x ≠ 15 → ((t.getV x).toNat : Int) = ((s.getV y).toNat - (s.getV x).toNat : Int) % 256) ∧
      (t.getV 15).toNat = (if (s.getV y).toNat ≥ (s.getV x).toNat then 1 else 0) ∧
      (∀ k, k ≠ x → k ≠ 15 → t.getV k = s.getV k) ∧ t = { s with v := t.v, result := .ok })

/-- 8XY6 and 8XYE: VX halved or doubled modulo 256, then the bit moved out in VF, the same for every Y (R99, R163, R170,
R172). -/
def Obligations.ShiftsInPlace : Prop :=
  ∀ (s : State) (x y : Reg),
    (∃ t, exec (.shrVx x y) s = .next t ∧ (x ≠ 15 → (t.getV x).toNat = (s.getV x).toNat / 2) ∧
      (t.getV 15).toNat = (s.getV x).toNat % 2 ∧
      (∀ k, k ≠ x → k ≠ 15 → t.getV k = s.getV k) ∧ t = { s with v := t.v, result := .ok }) ∧
    (∃ t, exec (.shlVx x y) s = .next t ∧ (x ≠ 15 → (t.getV x).toNat = 2 * (s.getV x).toNat % 256) ∧
      (t.getV 15).toNat = (s.getV x).toNat / 128 ∧
      (∀ k, k ≠ x → k ≠ 15 → t.getV k = s.getV k) ∧ t = { s with v := t.v, result := .ok })

/-- CXKK: the drawn byte, whatever it is, masked by the constant; every bit that is 0 in the constant is 0 in VX; each
execution takes a draw of its own (R175, R176; the free value is the model's, log entry 5). -/
def Obligations.RandomByteIsMasked : Prop :=
  ∀ (s : State) (x : Reg) (kk : Byte),
    ∃ t, exec (.rndVxKk x kk) s = .next t ∧
      (∀ b, (t.getV x).getLsbD b = ((Config.freeByte s.draws).getLsbD b && kk.getLsbD b)) ∧
      (kk = 0 → t.getV x = 0) ∧ t.draws = s.draws + 1 ∧
      (∀ k, k ≠ x → t.getV k = s.getV k) ∧ t = { s with v := t.v, draws := t.draws, result := .ok }

/-- The value the seven flag-writing instructions leave in VF is exactly 0x00 or 0x01 (R23); with X = 15 by the order
of R163, the spec's decision D11. -/
def Obligations.FlagsAreZeroOrOne : Prop :=
  ∀ (s t : State) (x y : Reg) (n : Count), ∀ i ∈ [Instr.addVxVy x y, .subVxVy x y, .subnVxVy x y, .shrVx x y,
      .shlVx x y, .addIVx x, .drwVxVyN x y n],
    exec i s = .next t → t.result = .ok → t.getV 15 = 0x00 ∨ t.getV 15 = 0x01

/-! ### The index register and memory -/

/-- ANNN, FX29 and FX30: the new `I`, the whole byte of VX multiplied (R190, R194, R270). -/
def Obligations.IndexLoads : Prop :=
  ∀ (s : State) (x : Reg) (nnn : Address),
    (∃ t, exec (.ldINnn nnn) s = .next t ∧ t.i.toNat = nnn.toNat ∧ t = { s with i := t.i, result := .ok }) ∧
    (∃ t, exec (.ldFVx x) s = .next t ∧ t.i.toNat = (s.getV x).toNat * 5 ∧
      t = { s with i := t.i, result := .ok }) ∧
    (∃ t, exec (.ldHfVx x) s = .next t ∧
      t.i.toNat = (s.config.bigFontBase.toNat + (s.getV x).toNat * 10) % 65536 ∧
      t = { s with i := t.i, result := .ok })

/-- FX1E: the sum modulo 65536 in `I`, and VF tests the stored value against 0x0FFF; with X = 15 the addend is the old
VF (R192). -/
def Obligations.AddToIndexSetsFlag : Prop :=
  ∀ (s : State) (x : Reg),
    ∃ t, exec (.addIVx x) s = .next t ∧ t.i.toNat = (s.i.toNat + (s.getV x).toNat) % 65536 ∧
      (t.getV 15).toNat = (if t.i.toNat > 0x0FFF then 1 else 0) ∧
      (∀ k, k ≠ 15 → t.getV k = s.getV k) ∧ t = { s with i := t.i, v := t.v, result := .ok }

/-- FX33: the three decimal digits of VX, hundreds at `I`, each a whole byte, every other byte unchanged, `I` too; when
a byte would lie above 0xFFF, the fault and nothing stored (R196). -/
def Obligations.BinaryCodedDecimal : Prop :=
  ∀ (s : State) (x : Reg),
    (s.MemoryWf → s.i.toNat + 2 ≤ 0x0FFF → ∃ t, exec (.ldBVx x) s = .next t ∧
      (t.byteAt s.i.toNat).toNat = (s.getV x).toNat / 100 ∧
      (t.byteAt (s.i.toNat + 1)).toNat = (s.getV x).toNat / 10 % 10 ∧
      (t.byteAt (s.i.toNat + 2)).toNat = (s.getV x).toNat % 10 ∧
      (∀ a, a < s.i.toNat ∨ s.i.toNat + 3 ≤ a → t.byteAt a = s.byteAt a) ∧
      t = { s with memory := t.memory, result := .ok }) ∧
    (s.i.toNat + 2 > 0x0FFF →
      exec (.ldBVx x) s = .next { s with result := .memoryOutOfRange (max s.i.toNat 0x1000) })

/-- FX55: V0 to VX at `I` to `I + X`, every other byte unchanged, `I` advanced by X + 1; out of range, the fault before
anything is stored (R198). -/
def Obligations.StoreRegisterBlock : Prop :=
  ∀ (s : State) (x : Reg),
    (s.MemoryWf → s.i.toNat + x.val ≤ 0x0FFF → ∃ t, exec (.ldMemVx x) s = .next t ∧
      (∀ k : Reg, k.val ≤ x.val → t.byteAt (s.i.toNat + k.val) = s.getV k) ∧
      (∀ a, a < s.i.toNat ∨ s.i.toNat + x.val < a → t.byteAt a = s.byteAt a) ∧
      t.i.toNat = s.i.toNat + x.val + 1 ∧ t = { s with memory := t.memory, i := t.i, result := .ok }) ∧
    (s.i.toNat + x.val > 0x0FFF →
      exec (.ldMemVx x) s = .next { s with result := .memoryOutOfRange (max s.i.toNat 0x1000) })

/-- FX65: the bytes at `I` to `I + X` in V0 to VX, every register above unchanged, `I` advanced by X + 1; out of range,
the fault before any register is written (R200). -/
def Obligations.LoadRegisterBlock : Prop :=
  ∀ (s : State) (x : Reg),
    (s.i.toNat + x.val ≤ 0x0FFF → ∃ t, exec (.ldVxMem x) s = .next t ∧
      (∀ k : Reg, t.getV k = if k.val ≤ x.val then s.byteAt (s.i.toNat + k.val) else s.getV k) ∧
      t.i.toNat = s.i.toNat + x.val + 1 ∧ t = { s with v := t.v, i := t.i, result := .ok }) ∧
    (s.i.toNat + x.val > 0x0FFF →
      exec (.ldVxMem x) s = .next { s with result := .memoryOutOfRange (max s.i.toNat 0x1000) })

/-- Registers stored with FX55 come back with FX65 from the same `I`, whatever the registers hold in between (R198,
R200). -/
def Obligations.LoadRestoresStoredBlock : Prop :=
  ∀ (s t : State) (x : Reg) (other : Vector Byte 16), s.MemoryWf → s.i.toNat + x.val ≤ 0x0FFF →
    exec (.ldMemVx x) s = .next t →
    ∃ u, exec (.ldVxMem x) { t with i := s.i, v := other } = .next u ∧
      ∀ k : Reg, k.val ≤ x.val → u.getV k = s.getV k

/-- A store is seen by the very next fetch: two registers stored by FX55 are the word fetched at their address (R63,
R73). -/
def Obligations.StoreIsSeenByNextFetch : Prop :=
  ∀ (s t : State) (x k : Reg) (next : Reg), s.MemoryWf → s.i.toNat + x.val ≤ 0x0FFF → next.val = k.val + 1 →
    next.val ≤ x.val → exec (.ldMemVx x) s = .next t →
    t.pc.toNat = s.i.toNat + k.val → t.fetchWord = s.getV k ++ s.getV next

/-! ### Timers and keys -/

/-- FX07, FX15, FX18: the delay timer read, the delay timer written, the sound timer written with `playBeep` following
it (R37, R210, R211, R212). -/
def Obligations.TimerTransfers : Prop :=
  ∀ (s : State) (x : Reg),
    (∃ t, exec (.ldVxDt x) s = .next t ∧ t.getV x = s.delayTimer ∧ (∀ k, k ≠ x → t.getV k = s.getV k) ∧
      t = { s with v := t.v, result := .ok }) ∧
    (∃ t, exec (.ldDtVx x) s = .next t ∧ t.delayTimer = s.getV x ∧
      t = { s with delayTimer := t.delayTimer, result := .ok }) ∧
    (∃ t, exec (.ldStVx x) s = .next t ∧ t.soundTimer = s.getV x ∧
      (t.playBeep = true ↔ (s.getV x).toNat ≠ 0) ∧ t = { s with soundTimer := t.soundTimer, result := .ok })

/-- EX9E and EXA1: a skip exactly when the key VX names is down, or is up; VX above 15 is the fault and nothing changes
(R219, R220, R221). -/
def Obligations.KeySkips : Prop :=
  ∀ (s : State) (x : Reg),
    (∀ k : Fin 16, (s.getV x).toNat = k.val →
      (∃ t, exec (.skpVx x) s = .next t ∧
        t.pc.toNat = (if s.key[k.val] = true then (s.pc.toNat + 2) % 65536 else s.pc.toNat) ∧
        t = { s with pc := t.pc, result := .ok }) ∧
      (∃ t, exec (.sknpVx x) s = .next t ∧
        t.pc.toNat = (if s.key[k.val] = false then (s.pc.toNat + 2) % 65536 else s.pc.toNat) ∧
        t = { s with pc := t.pc, result := .ok })) ∧
    ((s.getV x).toNat > 15 →
      exec (.skpVx x) s = .next { s with result := .keyIndexOutOfRange (s.getV x) } ∧
      exec (.sknpVx x) s = .next { s with result := .keyIndexOutOfRange (s.getV x) })

/-- FX0A with a key down: VX is the least index of a key that is down (R224). -/
def Obligations.KeyWaitTakesLowestKey : Prop :=
  ∀ (s : State) (x : Reg) (k : Fin 16), s.key[k.val] = true → (∀ j : Fin 16, j.val < k.val → s.key[j.val] = false) →
    ∃ t, exec (.ldVxK x) s = .next t ∧ (t.getV x).toNat = k.val ∧ (∀ j, j ≠ x → t.getV j = s.getV j) ∧
      t = { s with v := t.v, result := .ok }

/-- FX0A with no key down: the step returns `Ok` with the whole state equal to the state before it (R224, R225). -/
def Obligations.KeyWaitWithoutKeyIsFixedPoint : Prop :=
  ∀ (s : State) (x : Reg), s.pc.toNat ≤ 0x0FFE →
    decode s.config.schip (s.byteAt s.pc.toNat ++ s.byteAt (s.pc.toNat + 1)) = .ok (.ldVxK x) →
    (∀ k : Fin 16, s.key[k.val] = false) →
    operate .step s = .next { s with result := .ok } ∧
    (s.StepIsNext → step s = .next { s.dequeued with result := .ok })

/-! ### The display -/

/-- 00E0: every cell 0, the pixels of the active grid and the cells outside it, the refresh flag set, the mode and VF
unchanged (R230). -/
def Obligations.ClearDisplay : Prop :=
  ∀ s : State, ∃ t, exec .cls s = .next t ∧ (∀ x y, t.pix x y = false) ∧
    (∀ p, t.videoMemory.cell p = false) ∧ t.videoMemory.size = s.videoMemory.size ∧ t.refreshScreen = true ∧
    t = { s with videoMemory := t.videoMemory, refreshScreen := true, result := .ok }

/-- DXYN: exactly the pixels under a 1 bit of the sprite, wrapped on both axes, are toggled, the store having a cell for
each pixel of the grid (an invariant: StepKeepsWellTyped); cells outside the active grid are unchanged; VF is 1 when one
of the pixels was set, else 0; the refresh flag is set (R46, R231, R232, R234, R235). -/
def Obligations.DrawTogglesCoveredPixels : Prop :=
  ∀ (s : State) (x y : Reg) (n : Count), n.val = 0 ∨ s.i.toNat + n.val - 1 ≤ 0x0FFF →
    ∃ t, exec (.drwVxVyN x y n) s = .next t ∧
      (s.VideoCovers →
        ∀ px py, t.pix px py = s.pix px py ↔ ¬SpriteCovers s (s.getV x) (s.getV y) n.val px py) ∧
      OutsideUnchanged s t ∧
      ((∃ px py, SpriteCovers s (s.getV x) (s.getV y) n.val px py ∧ s.pix px py = true) → t.getV 15 = 1) ∧
      ((¬∃ px py, SpriteCovers s (s.getV x) (s.getV y) n.val px py ∧ s.pix px py = true) → t.getV 15 = 0) ∧
      t.refreshScreen = true ∧ (∀ k, k ≠ 15 → t.getV k = s.getV k) ∧
      t = { s with videoMemory := t.videoMemory, refreshScreen := true, v := t.v, result := .ok }

/-- DXYN out of range: the fault before any pixel, VF or the refresh flag changes (R232). With N = 0 it reads nothing
and cannot fault: no pixel changes, VF is 0 and the refresh flag is set, whatever `I` is (R236). -/
def Obligations.DrawFaultAndZeroRows : Prop :=
  ∀ (s : State) (x y : Reg) (n : Count),
    (0 < n.val → s.i.toNat + n.val - 1 > 0x0FFF →
      exec (.drwVxVyN x y n) s = .next { s with result := .memoryOutOfRange (max s.i.toNat 0x1000) }) ∧
    (n.val = 0 → ∃ t, exec (.drwVxVyN x y n) s = .next t ∧ t.getV 15 = 0 ∧
      (∀ k, k ≠ 15 → t.getV k = s.getV k) ∧ t = { s with refreshScreen := true, v := t.v, result := .ok })

/-- Drawing the same sprite twice at the same place restores the display, and the second draw's VF is 1 exactly when a
covered pixel was 0 before the first, the store having a cell for each pixel of the grid (R232, R233; log entry 9 on
R233's wording of the flag). -/
def Obligations.DrawTwiceRestoresDisplay : Prop :=
  ∀ (s t : State) (x y : Reg) (n : Count), exec (.drwVxVyN x y n) s = .next t → t.result = .ok →
    t.getV x = s.getV x → t.getV y = s.getV y →
    ∃ u, exec (.drwVxVyN x y n) t = .next u ∧ (∀ px py, u.pix px py = s.pix px py) ∧
      (s.VideoCovers → (u.getV 15 = 1 ↔ ∃ px py, SpriteCovers s (s.getV x) (s.getV y) n.val px py ∧ s.pix px py = false))

/-! ### The extension -/

/-- 00CN, 00FB, 00FC: the active grid moved down N rows, right 4 columns, left 4 columns, vacated pixels 0, nothing
wraps, the store having a cell for each pixel of the grid; every cell outside the active grid is unchanged, `pix` there
too; the refresh flag set (R46, R252, R254, R256). -/
def Obligations.ScrollsMoveActiveGrid : Prop :=
  ∀ (s : State) (n : Count),
    (∃ t, exec (.scdN n) s = .next t ∧
      (s.VideoCovers → ∀ x y, x < s.width → y < s.height →
        t.pix x y = if n.val ≤ y then s.pix x (y - n.val) else false) ∧
      OutsideUnchanged s t ∧
      t = { s with videoMemory := t.videoMemory, refreshScreen := true, result := .ok }) ∧
    (∃ t, exec .scr s = .next t ∧
      (s.VideoCovers → ∀ x y, x < s.width → y < s.height →
        t.pix x y = if 4 ≤ x then s.pix (x - 4) y else false) ∧
      OutsideUnchanged s t ∧
      t = { s with videoMemory := t.videoMemory, refreshScreen := true, result := .ok }) ∧
    (∃ t, exec .scl s = .next t ∧
      (s.VideoCovers → ∀ x y, x < s.width → y < s.height →
        t.pix x y = if x + 4 < s.width then s.pix (x + 4) y else false) ∧
      OutsideUnchanged s t ∧
      t = { s with videoMemory := t.videoMemory, refreshScreen := true, result := .ok })

/-- 00FE and 00FF: the mode set to a fixed value, the grid 64 by 32 or 128 by 64, every cell cleared, the refresh flag
set, also when the mode does not change (R39, R260, R262, R264). -/
def Obligations.ModeInstructionsClear : Prop :=
  ∀ s : State,
    (∃ t, exec .low s = .next t ∧ t.width = 64 ∧ t.height = 32 ∧ (∀ x y, t.pix x y = false) ∧
      (∀ p, t.videoMemory.cell p = false) ∧ t.videoMemory.size = s.videoMemory.size ∧
      t = { s with extendedGraphicsMode := false, videoMemory := t.videoMemory, refreshScreen := true,
                   result := .ok }) ∧
    (∃ t, exec .high s = .next t ∧ t.width = 128 ∧ t.height = 64 ∧ (∀ x y, t.pix x y = false) ∧
      (∀ p, t.videoMemory.cell p = false) ∧ t.videoMemory.size = s.videoMemory.size ∧
      t = { s with extendedGraphicsMode := true, videoMemory := t.videoMemory, refreshScreen := true,
                   result := .ok })

/-- 00FD: `ExitRequested` is delivered and nothing changes but the advanced `pc`, so that a driver that steps again
continues with the instruction after it (R258). -/
def Obligations.ExitIsDelivered : Prop :=
  (∀ s : State, exec .exit s = .next { s with result := .exitRequested }) ∧
  (∀ s : State, s.pc.toNat ≤ 0x0FFE →
    decode s.config.schip (s.byteAt s.pc.toNat ++ s.byteAt (s.pc.toNat + 1)) = .ok .exit →
    operate .step s = .next { s with pc := s.pc + 2, result := .exitRequested } ∧
    (s.StepIsNext → step s = .next { s.dequeued with pc := s.pc + 2, result := .exitRequested }))

/-- FX75 and FX85, X at most 7: V0 to VX in R[0] to R[X], and R[0] to R[X] in V0 to VX, the registers above keeping their
values (R266, R268). -/
def Obligations.AuxiliaryRegisterBlocks : Prop :=
  ∀ (s : State) (x : Reg), x.val ≤ 7 →
    (∃ t, exec (.ldRVx x) s = .next t ∧
      (∀ k : Fin 8, t.r[k.val] = if k.val ≤ x.val then s.v[k.val] else s.r[k.val]) ∧
      t = { s with r := t.r, result := .ok }) ∧
    (∃ t, exec (.ldVxR x) s = .next t ∧
      (∀ k : Fin 8, t.v[k.val] = if k.val ≤ x.val then s.r[k.val] else s.v[k.val]) ∧
      (∀ k : Reg, 8 ≤ k.val → t.getV k = s.getV k) ∧ t = { s with v := t.v, result := .ok })

/-! ### Host operations and reset -/

/-- `reset()` from any state: every field at the value of R340's pseudocode, memory the parameter `FONT` below 0x050
and zero above, hence `playBeep` 0 (R340). That the video store then has 8192 cells with `SCHIP` true and 2048 with
`SCHIP` false is R46's count, the spec's own decision D43 (log entry 11); R340 says only that every cell becomes 0. The
record of the result is the model's own (log entry 1). -/
def Obligations.ResetSetsEveryField : Prop :=
  ∀ s : State, ∃ t, operate .reset s = .next t ∧
    (∀ a (h : a < 80), t.byteAt a = s.config.font[a]) ∧ (∀ a, 80 ≤ a → a < 0x1000 → t.byteAt a = 0x00) ∧
    (∀ k : Reg, t.getV k = 0x00) ∧ t.i = 0x0000 ∧ t.pc = 0x0200 ∧ t.sp.toNat = 0 ∧
    (∀ k : Fin 16, t.stack[k.val] = 0x0000) ∧ t.delayTimer = 0x00 ∧ t.soundTimer = 0x00 ∧ t.playBeep = false ∧
    (∀ x y, t.pix x y = false) ∧ (∀ p, t.videoMemory.cell p = false) ∧
    t.videoMemory.size = cellCount s.config.schip ∧ t.extendedGraphicsMode = false ∧ (∀ k : Fin 16, t.key[k.val] = false) ∧
    t.refreshScreen = false ∧ (∀ k : Fin 8, t.r[k.val] = 0x00) ∧ t.result = .ok

/-- The state after `reset()` is the same whatever the state of the machine before it, its parameters being fixed for its
life (R6), and two resets leave what one leaves (R341). -/
def Obligations.ResetIsIdempotent : Prop :=
  ∀ s s' : State, s.config = s'.config → ∃ t t', operate .reset s = .next t ∧ operate .reset s' = .next t' ∧
    t.exported = t'.exported ∧ operate .reset t = .next t

/-- `load_program`: more than 3584 bytes is `ProgramTooLarge` and changes nothing; else the bytes stand from 0x200 on,
every other byte and every other field is unchanged, `pc` too (R280, R281, R282). -/
def Obligations.LoadProgramCopiesOrRefuses : Prop :=
  ∀ (s : State) (bytes : List Byte),
    (bytes.length > 3584 →
      operate (.loadProgram bytes) s = .next { s with result := .programTooLarge bytes.length }) ∧
    (s.MemoryWf → bytes.length ≤ 3584 → ∃ t, operate (.loadProgram bytes) s = .next t ∧
      (∀ k (h : k < bytes.length), t.byteAt (0x200 + k) = bytes[k]) ∧
      (∀ a, a < 0x200 ∨ 0x200 + bytes.length ≤ a → t.byteAt a = s.byteAt a) ∧
      t = { s with memory := t.memory, result := .ok })

/-- n scheduled ticks: each timer counts down by n and stops at 0, `playBeep` following the sound timer; nothing else
changes (R37, R284, R285). -/
def Obligations.TicksCountDownToZero : Prop :=
  ∀ (n : Nat) (s : State), 0 < n → s.schedule = List.replicate n .tick →
    ∃ t : State, Sys2Proof.core.run n s = .next t ∧
      t.delayTimer.toNat = s.delayTimer.toNat - n ∧ t.soundTimer.toNat = s.soundTimer.toNat - n ∧
      (t.playBeep = true ↔ n < s.soundTimer.toNat) ∧
      t = { s with delayTimer := t.delayTimer, soundTimer := t.soundTimer, schedule := [], result := .ok }

/-- `write_keys(k)` replaces the key vector, `clear_refresh()` clears the flag, and neither changes anything else (R286,
R288). -/
def Obligations.KeyAndRefreshWrites : Prop :=
  ∀ (s : State) (keys : Vector Bool 16),
    operate (.writeKeys keys) s = .next { s with key := keys, result := .ok } ∧
    operate .clearRefresh s = .next { s with refreshScreen := false, result := .ok }

/-- `import_state` replaces every field of the state by the snapshot's, a state imports its own export unchanged, and an
ill-typed snapshot is refused (R290, R292; the parameters, draws and schedule are no fields of the snapshot). -/
def Obligations.ImportInstallsSnapshot : Prop :=
  ∀ (s : State) (snapshot : Snapshot),
    (snapshot.wellTyped s.config = true → ∃ t, operate (.importState snapshot) s = .next t ∧
      t.exported = snapshot ∧ t.config = s.config ∧ t.draws = s.draws ∧ t.schedule = s.schedule) ∧
    (snapshot.wellTyped s.config = false → operate (.importState snapshot) s = .refused .importIllTyped) ∧
    operate .exportState s = .next { s with result := .ok } ∧
    (s.WellTyped → operate (.importState s.exported) s = .next { s with result := .ok })
end

