-- ==== Sys2Proof/Laws/Encoding.lean ====
section
/-!
SUPPORT. What the encoder's pieces contribute to each field and to each mask of the opcode map (R91, R94, R112).
-/
namespace Sys2Proof

/-! ### Fields of the pieces -/

@[simp] theorem x_atX : ∀ x : Reg, (atX x).extractLsb' 8 4 = BitVec.ofNat 4 x.val := by decide
@[simp] theorem y_atX : ∀ x : Reg, (atX x).extractLsb' 4 4 = 0#4 := by decide
@[simp] theorem n_atX : ∀ x : Reg, (atX x).extractLsb' 0 4 = 0#4 := by decide
@[simp] theorem kk_atX : ∀ x : Reg, (atX x).extractLsb' 0 8 = 0#8 := by decide
@[simp] theorem x_atY : ∀ y : Reg, (atY y).extractLsb' 8 4 = 0#4 := by decide
@[simp] theorem y_atY : ∀ y : Reg, (atY y).extractLsb' 4 4 = BitVec.ofNat 4 y.val := by decide
@[simp] theorem n_atY : ∀ y : Reg, (atY y).extractLsb' 0 4 = 0#4 := by decide
@[simp] theorem x_low4 : ∀ n : Count, (low4 n).extractLsb' 8 4 = 0#4 := by decide
@[simp] theorem y_low4 : ∀ n : Count, (low4 n).extractLsb' 4 4 = 0#4 := by decide
@[simp] theorem n_low4 : ∀ n : Count, (low4 n).extractLsb' 0 4 = BitVec.ofNat 4 n.val := by decide

@[simp] theorem x_low8 (kk : Byte) : (low8 kk).extractLsb' 8 4 = 0#4 := by
  ext i hi; simp [low8]
@[simp] theorem kk_low8 (kk : Byte) : (low8 kk).extractLsb' 0 8 = kk := by
  ext i hi; simp [low8, BitVec.getLsbD_eq_getElem hi, show i < 16 by omega]
@[simp] theorem nnn_low12 (nnn : Address) : (low12 nnn).extractLsb' 0 12 = nnn := by
  ext i hi; simp [low12, BitVec.getLsbD_eq_getElem hi, show i < 16 by omega]

/-! ### Masks of the pieces -/

@[simp] theorem mask_family_atX : ∀ x : Reg, atX x &&& 0xF000#16 = 0#16 := by decide
@[simp] theorem mask_nibble_atX : ∀ x : Reg, atX x &&& 0xF00F#16 = 0#16 := by decide
@[simp] theorem mask_byte_atX : ∀ x : Reg, atX x &&& 0xF0FF#16 = 0#16 := by decide
theorem mask_low_register_atX : ∀ x : Reg, x.val ≤ 7 → atX x &&& 0xF8FF#16 = 0#16 := by decide
@[simp] theorem mask_family_atY : ∀ y : Reg, atY y &&& 0xF000#16 = 0#16 := by decide
@[simp] theorem mask_nibble_atY : ∀ y : Reg, atY y &&& 0xF00F#16 = 0#16 := by decide
@[simp] theorem mask_family_low4 : ∀ n : Count, low4 n &&& 0xF000#16 = 0#16 := by decide
@[simp] theorem mask_count_low4 : ∀ n : Count, low4 n &&& 0xFFF0#16 = 0#16 := by decide

/-- A value below 2 ^ 12 has no bit in the family field. -/
theorem family_of_small {w : Word} (h : ∀ i, 12 ≤ i → w.getLsbD i = false) : w &&& 0xF000#16 = 0#16 := by
  refine BitVec.eq_of_getLsbD_eq fun i hi => ?_
  by_cases h12 : 12 ≤ i
  · simp [h i h12]
  · have : (0xF000#16).getLsbD i = false := by
      have : ∀ j : Fin 12, (0xF000#16).getLsbD j.val = false := by decide
      exact this ⟨i, by omega⟩
    simp [this]

@[simp] theorem mask_family_low8 (kk : Byte) : low8 kk &&& 0xF000#16 = 0#16 :=
  family_of_small fun i hi => by simp [low8, BitVec.getLsbD_setWidth, BitVec.getLsbD_of_ge kk i (by omega)]

@[simp] theorem mask_family_low12 (nnn : Address) : low12 nnn &&& 0xF000#16 = 0#16 :=
  family_of_small fun i hi => by simp [low12, BitVec.getLsbD_setWidth, BitVec.getLsbD_of_ge nnn i hi]

theorem word_or_and (a b m : Word) : (a ||| b) &&& m = (a &&& m) ||| (b &&& m) := by
  ext i hi; simp [Bool.and_or_distrib_right]

/-! ### The rows -/

/-- Masks and match values do not depend on the word the operands are read from. -/
theorem patterns_masks (schip : Bool) (w : Word) :
    (patterns schip w).map (fun p => (p.mask, p.value)) = (patterns schip 0).map fun p => (p.mask, p.value) := by
  cases schip <;> rfl

/-- The bytes of an encoded word are read back as the word (R61). -/
theorem wordOfBytes_split (w : Word) : wordOfBytes (w.extractLsb' 8 8) (w.extractLsb' 0 8) = w := by
  refine BitVec.eq_of_getLsbD_eq fun i hi => ?_
  rw [wordOfBytes, BitVec.getLsbD_append]
  by_cases h : i < 8
  · simp [h]
  · simp [h, show i - 8 < 8 by omega, show 8 + (i - 8) = i by omega]

end Sys2Proof
end

