-- ==== Sys2Proof/Laws/State.lean ====
section
/-!
SUPPORT. One lemma per field per named update of State, so that no later proof unfolds a record update, and what a
register read gives after a register write.
-/
namespace Sys2Proof.Machine

@[simp] theorem State.setV_memory (s : State) (x : Reg) (b : Byte) :
    (s.setV x b).memory = s.memory := rfl

@[simp] theorem State.setV_v (s : State) (x : Reg) (b : Byte) :
    (s.setV x b).v = s.v.set x.val b := rfl

@[simp] theorem State.setV_i (s : State) (x : Reg) (b : Byte) :
    (s.setV x b).i = s.i := rfl

@[simp] theorem State.setV_pc (s : State) (x : Reg) (b : Byte) :
    (s.setV x b).pc = s.pc := rfl

@[simp] theorem State.setV_stack (s : State) (x : Reg) (b : Byte) :
    (s.setV x b).stack = s.stack := rfl

@[simp] theorem State.setV_sp (s : State) (x : Reg) (b : Byte) :
    (s.setV x b).sp = s.sp := rfl

@[simp] theorem State.setV_delayTimer (s : State) (x : Reg) (b : Byte) :
    (s.setV x b).delayTimer = s.delayTimer := rfl

@[simp] theorem State.setV_soundTimer (s : State) (x : Reg) (b : Byte) :
    (s.setV x b).soundTimer = s.soundTimer := rfl

@[simp] theorem State.setV_videoMemory (s : State) (x : Reg) (b : Byte) :
    (s.setV x b).videoMemory = s.videoMemory := rfl

@[simp] theorem State.setV_extendedGraphicsMode (s : State) (x : Reg) (b : Byte) :
    (s.setV x b).extendedGraphicsMode = s.extendedGraphicsMode := rfl

@[simp] theorem State.setV_key (s : State) (x : Reg) (b : Byte) :
    (s.setV x b).key = s.key := rfl

@[simp] theorem State.setV_refreshScreen (s : State) (x : Reg) (b : Byte) :
    (s.setV x b).refreshScreen = s.refreshScreen := rfl

@[simp] theorem State.setV_r (s : State) (x : Reg) (b : Byte) :
    (s.setV x b).r = s.r := rfl

@[simp] theorem State.setV_config (s : State) (x : Reg) (b : Byte) :
    (s.setV x b).config = s.config := rfl

@[simp] theorem State.setV_result (s : State) (x : Reg) (b : Byte) :
    (s.setV x b).result = s.result := rfl

@[simp] theorem State.setV_draws (s : State) (x : Reg) (b : Byte) :
    (s.setV x b).draws = s.draws := rfl

@[simp] theorem State.setV_schedule (s : State) (x : Reg) (b : Byte) :
    (s.setV x b).schedule = s.schedule := rfl

@[simp] theorem State.storeBytes_memory (s : State) (a : Nat) (bytes : List Byte) :
    (s.storeBytes a bytes).memory = Memory.writeAll (resetByte s.config) s.memory a bytes := rfl

@[simp] theorem State.storeBytes_v (s : State) (a : Nat) (bytes : List Byte) :
    (s.storeBytes a bytes).v = s.v := rfl

@[simp] theorem State.storeBytes_i (s : State) (a : Nat) (bytes : List Byte) :
    (s.storeBytes a bytes).i = s.i := rfl

@[simp] theorem State.storeBytes_pc (s : State) (a : Nat) (bytes : List Byte) :
    (s.storeBytes a bytes).pc = s.pc := rfl

@[simp] theorem State.storeBytes_stack (s : State) (a : Nat) (bytes : List Byte) :
    (s.storeBytes a bytes).stack = s.stack := rfl

@[simp] theorem State.storeBytes_sp (s : State) (a : Nat) (bytes : List Byte) :
    (s.storeBytes a bytes).sp = s.sp := rfl

@[simp] theorem State.storeBytes_delayTimer (s : State) (a : Nat) (bytes : List Byte) :
    (s.storeBytes a bytes).delayTimer = s.delayTimer := rfl

@[simp] theorem State.storeBytes_soundTimer (s : State) (a : Nat) (bytes : List Byte) :
    (s.storeBytes a bytes).soundTimer = s.soundTimer := rfl

@[simp] theorem State.storeBytes_videoMemory (s : State) (a : Nat) (bytes : List Byte) :
    (s.storeBytes a bytes).videoMemory = s.videoMemory := rfl

@[simp] theorem State.storeBytes_extendedGraphicsMode (s : State) (a : Nat) (bytes : List Byte) :
    (s.storeBytes a bytes).extendedGraphicsMode = s.extendedGraphicsMode := rfl

@[simp] theorem State.storeBytes_key (s : State) (a : Nat) (bytes : List Byte) :
    (s.storeBytes a bytes).key = s.key := rfl

@[simp] theorem State.storeBytes_refreshScreen (s : State) (a : Nat) (bytes : List Byte) :
    (s.storeBytes a bytes).refreshScreen = s.refreshScreen := rfl

@[simp] theorem State.storeBytes_r (s : State) (a : Nat) (bytes : List Byte) :
    (s.storeBytes a bytes).r = s.r := rfl

@[simp] theorem State.storeBytes_config (s : State) (a : Nat) (bytes : List Byte) :
    (s.storeBytes a bytes).config = s.config := rfl

@[simp] theorem State.storeBytes_result (s : State) (a : Nat) (bytes : List Byte) :
    (s.storeBytes a bytes).result = s.result := rfl

@[simp] theorem State.storeBytes_draws (s : State) (a : Nat) (bytes : List Byte) :
    (s.storeBytes a bytes).draws = s.draws := rfl

@[simp] theorem State.storeBytes_schedule (s : State) (a : Nat) (bytes : List Byte) :
    (s.storeBytes a bytes).schedule = s.schedule := rfl

@[simp] theorem State.advance_memory (s : State) :
    (s.advance).memory = s.memory := rfl

@[simp] theorem State.advance_v (s : State) :
    (s.advance).v = s.v := rfl

@[simp] theorem State.advance_i (s : State) :
    (s.advance).i = s.i := rfl

@[simp] theorem State.advance_pc (s : State) :
    (s.advance).pc = s.pc + 2 := rfl

@[simp] theorem State.advance_stack (s : State) :
    (s.advance).stack = s.stack := rfl

@[simp] theorem State.advance_sp (s : State) :
    (s.advance).sp = s.sp := rfl

@[simp] theorem State.advance_delayTimer (s : State) :
    (s.advance).delayTimer = s.delayTimer := rfl

@[simp] theorem State.advance_soundTimer (s : State) :
    (s.advance).soundTimer = s.soundTimer := rfl

@[simp] theorem State.advance_videoMemory (s : State) :
    (s.advance).videoMemory = s.videoMemory := rfl

@[simp] theorem State.advance_extendedGraphicsMode (s : State) :
    (s.advance).extendedGraphicsMode = s.extendedGraphicsMode := rfl

@[simp] theorem State.advance_key (s : State) :
    (s.advance).key = s.key := rfl

@[simp] theorem State.advance_refreshScreen (s : State) :
    (s.advance).refreshScreen = s.refreshScreen := rfl

@[simp] theorem State.advance_r (s : State) :
    (s.advance).r = s.r := rfl

@[simp] theorem State.advance_config (s : State) :
    (s.advance).config = s.config := rfl

@[simp] theorem State.advance_result (s : State) :
    (s.advance).result = s.result := rfl

@[simp] theorem State.advance_draws (s : State) :
    (s.advance).draws = s.draws := rfl

@[simp] theorem State.advance_schedule (s : State) :
    (s.advance).schedule = s.schedule := rfl

@[simp] theorem State.setVFlag_memory (s : State) (x : Reg) (result flag : Byte) :
    (s.setVFlag x result flag).memory = s.memory := rfl

@[simp] theorem State.setVFlag_i (s : State) (x : Reg) (result flag : Byte) :
    (s.setVFlag x result flag).i = s.i := rfl

@[simp] theorem State.setVFlag_pc (s : State) (x : Reg) (result flag : Byte) :
    (s.setVFlag x result flag).pc = s.pc := rfl

@[simp] theorem State.setVFlag_stack (s : State) (x : Reg) (result flag : Byte) :
    (s.setVFlag x result flag).stack = s.stack := rfl

@[simp] theorem State.setVFlag_sp (s : State) (x : Reg) (result flag : Byte) :
    (s.setVFlag x result flag).sp = s.sp := rfl

@[simp] theorem State.setVFlag_delayTimer (s : State) (x : Reg) (result flag : Byte) :
    (s.setVFlag x result flag).delayTimer = s.delayTimer := rfl

@[simp] theorem State.setVFlag_soundTimer (s : State) (x : Reg) (result flag : Byte) :
    (s.setVFlag x result flag).soundTimer = s.soundTimer := rfl

@[simp] theorem State.setVFlag_videoMemory (s : State) (x : Reg) (result flag : Byte) :
    (s.setVFlag x result flag).videoMemory = s.videoMemory := rfl

@[simp] theorem State.setVFlag_extendedGraphicsMode (s : State) (x : Reg) (result flag : Byte) :
    (s.setVFlag x result flag).extendedGraphicsMode = s.extendedGraphicsMode := rfl

@[simp] theorem State.setVFlag_key (s : State) (x : Reg) (result flag : Byte) :
    (s.setVFlag x result flag).key = s.key := rfl

@[simp] theorem State.setVFlag_refreshScreen (s : State) (x : Reg) (result flag : Byte) :
    (s.setVFlag x result flag).refreshScreen = s.refreshScreen := rfl

@[simp] theorem State.setVFlag_r (s : State) (x : Reg) (result flag : Byte) :
    (s.setVFlag x result flag).r = s.r := rfl

@[simp] theorem State.setVFlag_config (s : State) (x : Reg) (result flag : Byte) :
    (s.setVFlag x result flag).config = s.config := rfl

@[simp] theorem State.setVFlag_result (s : State) (x : Reg) (result flag : Byte) :
    (s.setVFlag x result flag).result = s.result := rfl

@[simp] theorem State.setVFlag_draws (s : State) (x : Reg) (result flag : Byte) :
    (s.setVFlag x result flag).draws = s.draws := rfl

@[simp] theorem State.setVFlag_schedule (s : State) (x : Reg) (result flag : Byte) :
    (s.setVFlag x result flag).schedule = s.schedule := rfl

@[simp] theorem skipWhen_memory (condition : Bool) (s : State) :
    (skipWhen condition s).memory = s.memory := by
  cases condition <;> rfl

@[simp] theorem skipWhen_v (condition : Bool) (s : State) :
    (skipWhen condition s).v = s.v := by
  cases condition <;> rfl

@[simp] theorem skipWhen_i (condition : Bool) (s : State) :
    (skipWhen condition s).i = s.i := by
  cases condition <;> rfl

@[simp] theorem skipWhen_stack (condition : Bool) (s : State) :
    (skipWhen condition s).stack = s.stack := by
  cases condition <;> rfl

@[simp] theorem skipWhen_sp (condition : Bool) (s : State) :
    (skipWhen condition s).sp = s.sp := by
  cases condition <;> rfl

@[simp] theorem skipWhen_delayTimer (condition : Bool) (s : State) :
    (skipWhen condition s).delayTimer = s.delayTimer := by
  cases condition <;> rfl

@[simp] theorem skipWhen_soundTimer (condition : Bool) (s : State) :
    (skipWhen condition s).soundTimer = s.soundTimer := by
  cases condition <;> rfl

@[simp] theorem skipWhen_videoMemory (condition : Bool) (s : State) :
    (skipWhen condition s).videoMemory = s.videoMemory := by
  cases condition <;> rfl

@[simp] theorem skipWhen_extendedGraphicsMode (condition : Bool) (s : State) :
    (skipWhen condition s).extendedGraphicsMode = s.extendedGraphicsMode := by
  cases condition <;> rfl

@[simp] theorem skipWhen_key (condition : Bool) (s : State) :
    (skipWhen condition s).key = s.key := by
  cases condition <;> rfl

@[simp] theorem skipWhen_refreshScreen (condition : Bool) (s : State) :
    (skipWhen condition s).refreshScreen = s.refreshScreen := by
  cases condition <;> rfl

@[simp] theorem skipWhen_r (condition : Bool) (s : State) :
    (skipWhen condition s).r = s.r := by
  cases condition <;> rfl

@[simp] theorem skipWhen_config (condition : Bool) (s : State) :
    (skipWhen condition s).config = s.config := by
  cases condition <;> rfl

@[simp] theorem skipWhen_result (condition : Bool) (s : State) :
    (skipWhen condition s).result = s.result := by
  cases condition <;> rfl

@[simp] theorem skipWhen_draws (condition : Bool) (s : State) :
    (skipWhen condition s).draws = s.draws := by
  cases condition <;> rfl

@[simp] theorem skipWhen_schedule (condition : Bool) (s : State) :
    (skipWhen condition s).schedule = s.schedule := by
  cases condition <;> rfl

theorem skipWhen_pc (condition : Bool) (s : State) :
    (skipWhen condition s).pc = if condition then s.pc + 2 else s.pc := by
  cases condition <;> rfl

/-! ### Reads that see the spec's fields only: the model's own fields do not matter -/

@[simp] theorem State.getV_mk (s : State) (c : Config) (k : Result) (d : Nat) (l : List Operation) (x : Reg) :
    (State.mk s.toSnapshot c k d l).getV x = s.getV x := rfl

@[simp] theorem State.byteAt_mk (s : State) (k : Result) (d : Nat) (l : List Operation) (a : Nat) :
    (State.mk s.toSnapshot s.config k d l).byteAt a = s.byteAt a := rfl

@[simp] theorem State.pix_mk (s : State) (c : Config) (k : Result) (d : Nat) (l : List Operation) (x y : Nat) :
    (State.mk s.toSnapshot c k d l).pix x y = s.pix x y := rfl

@[simp] theorem State.width_mk (s : State) (c : Config) (k : Result) (d : Nat) (l : List Operation) :
    (State.mk s.toSnapshot c k d l).width = s.width := rfl

@[simp] theorem State.height_mk (s : State) (c : Config) (k : Result) (d : Nat) (l : List Operation) :
    (State.mk s.toSnapshot c k d l).height = s.height := rfl

@[simp] theorem State.keyDown_mk (s : State) (c : Config) (k : Result) (d : Nat) (l : List Operation) (n : Nat) :
    (State.mk s.toSnapshot c k d l).keyDown n = s.keyDown n := rfl

@[simp] theorem State.fetchWord_mk (s : State) (k : Result) (d : Nat) (l : List Operation) :
    (State.mk s.toSnapshot s.config k d l).fetchWord = s.fetchWord := rfl

/-! ### What depends on few fields only -/

theorem State.byteAt_congr {s t : State} (a : Nat) (hm : t.memory = s.memory)
    (hc : t.config = s.config) : t.byteAt a = s.byteAt a := by
  simp [State.byteAt, hm, hc]

/-! ### V registers (R21: no register aliases another) -/

@[simp] theorem State.getV_setV_same (s : State) (x : Reg) (b : Byte) : (s.setV x b).getV x = b := by
  simp [State.getV]

theorem State.getV_setV_other (s : State) {x k : Reg} (b : Byte) (h : k ≠ x) :
    (s.setV x b).getV k = s.getV k := by
  have : x.val ≠ k.val := fun e => h (Fin.ext e.symm)
  simp [State.getV, this]

theorem State.getV_setV (s : State) (x k : Reg) (b : Byte) :
    (s.setV x b).getV k = if k = x then b else s.getV k := by
  split
  · next h => subst h; simp
  · next h => exact State.getV_setV_other s b h

/-- The flag is written last, so VF ends holding it whatever X is (R163). -/
@[simp] theorem State.getV_setVFlag_regF (s : State) (x : Reg) (result flag : Byte) :
    (s.setVFlag x result flag).getV regF = flag := by
  simp [State.setVFlag]

theorem State.getV_setVFlag (s : State) (x k : Reg) (result flag : Byte) :
    (s.setVFlag x result flag).getV k = if k = regF then flag else if k = x then result else s.getV k := by
  simp [State.setVFlag, State.getV_setV]

@[simp] theorem State.getV_skipWhen (condition : Bool) (s : State) (k : Reg) :
    (skipWhen condition s).getV k = s.getV k := by
  simp [State.getV]

/-! ### A sprite drawn (DXYN) -/

@[simp] theorem State.withSprite_memory (s : State) (x0 y0 : Byte) (sprite : List Byte) :
    (s.withSprite x0 y0 sprite).memory = s.memory := rfl

@[simp] theorem State.withSprite_i (s : State) (x0 y0 : Byte) (sprite : List Byte) :
    (s.withSprite x0 y0 sprite).i = s.i := rfl

@[simp] theorem State.withSprite_pc (s : State) (x0 y0 : Byte) (sprite : List Byte) :
    (s.withSprite x0 y0 sprite).pc = s.pc := rfl

@[simp] theorem State.withSprite_stack (s : State) (x0 y0 : Byte) (sprite : List Byte) :
    (s.withSprite x0 y0 sprite).stack = s.stack := rfl

@[simp] theorem State.withSprite_sp (s : State) (x0 y0 : Byte) (sprite : List Byte) :
    (s.withSprite x0 y0 sprite).sp = s.sp := rfl

@[simp] theorem State.withSprite_delayTimer (s : State) (x0 y0 : Byte) (sprite : List Byte) :
    (s.withSprite x0 y0 sprite).delayTimer = s.delayTimer := rfl

@[simp] theorem State.withSprite_soundTimer (s : State) (x0 y0 : Byte) (sprite : List Byte) :
    (s.withSprite x0 y0 sprite).soundTimer = s.soundTimer := rfl

@[simp] theorem State.withSprite_extendedGraphicsMode (s : State) (x0 y0 : Byte) (sprite : List Byte) :
    (s.withSprite x0 y0 sprite).extendedGraphicsMode = s.extendedGraphicsMode := rfl

@[simp] theorem State.withSprite_key (s : State) (x0 y0 : Byte) (sprite : List Byte) :
    (s.withSprite x0 y0 sprite).key = s.key := rfl

@[simp] theorem State.withSprite_r (s : State) (x0 y0 : Byte) (sprite : List Byte) :
    (s.withSprite x0 y0 sprite).r = s.r := rfl

@[simp] theorem State.withSprite_config (s : State) (x0 y0 : Byte) (sprite : List Byte) :
    (s.withSprite x0 y0 sprite).config = s.config := rfl

@[simp] theorem State.withSprite_result (s : State) (x0 y0 : Byte) (sprite : List Byte) :
    (s.withSprite x0 y0 sprite).result = s.result := rfl

@[simp] theorem State.withSprite_draws (s : State) (x0 y0 : Byte) (sprite : List Byte) :
    (s.withSprite x0 y0 sprite).draws = s.draws := rfl

@[simp] theorem State.withSprite_schedule (s : State) (x0 y0 : Byte) (sprite : List Byte) :
    (s.withSprite x0 y0 sprite).schedule = s.schedule := rfl

@[simp] theorem State.withSprite_videoMemory (s : State) (x0 y0 : Byte) (sprite : List Byte) :
    (s.withSprite x0 y0 sprite).videoMemory = (s.drawn x0 y0 sprite).video := rfl

@[simp] theorem State.withSprite_refreshScreen (s : State) (x0 y0 : Byte) (sprite : List Byte) :
    (s.withSprite x0 y0 sprite).refreshScreen = true := rfl

theorem State.withSprite_getV_flag (s : State) (x0 y0 : Byte) (sprite : List Byte) :
    (s.withSprite x0 y0 sprite).getV 15 = collisionFlag (s.drawn x0 y0 sprite).collision :=
  State.getV_setV_same _ _ _

theorem State.withSprite_getV_other (s : State) (x0 y0 : Byte) (sprite : List Byte) {k : Reg} (hk : k ≠ 15) :
    (s.withSprite x0 y0 sprite).getV k = s.getV k :=
  State.getV_setV_other _ _ hk

end Sys2Proof.Machine
end

