-- ==== Sys2Proof/Laws/Memory.lean ====
section
/-!
SUPPORT. The laws of `memory`: a read after a write, a write leaves every other address alone, and every operation keeps
the canonical form (R60, R62).
-/
namespace Sys2Proof.Machine

/-! ### One byte -/

/-- A write changes no other byte (R60), whatever the form of the list. -/
theorem Memory.read_write_other (fill : Nat → Byte) (m : Memory) {a k : Nat} (b : Byte) (h : k ≠ a) :
    Memory.read fill (Memory.write fill m a b) k = Memory.read fill m k := by
  induction m with
  | nil => by_cases hb : b = fill a <;> simp [Memory.write, Memory.read, hb, Ne.symm h]
  | cons e rest ih =>
    obtain ⟨e, c⟩ := e
    simp only [Memory.write]
    split
    · split <;> simp [Memory.read, Ne.symm h]
    · split
      · next he => subst he; split <;> simp [Memory.read, Ne.symm h]
      · simp [Memory.read, ih]

/-- An address below every listed one reads as the reset contents. -/
theorem Memory.read_of_wfFrom (fill : Nat → Byte) (m : Memory) {low a : Nat}
    (hm : Memory.wfFrom fill low m = true) (h : a < low) : Memory.read fill m a = fill a := by
  induction m generalizing low with
  | nil => rfl
  | cons e rest ih =>
    obtain ⟨e, c⟩ := e
    simp only [Memory.wfFrom, Bool.and_eq_true, decide_eq_true_eq] at hm
    have hne : e ≠ a := by omega
    simp only [Memory.read, hne, if_false]
    exact ih hm.2 (by omega)

/-- A read gives the value just written there (R60). -/
theorem Memory.read_write_same_from (fill : Nat → Byte) (m : Memory) (a : Nat) (b : Byte) {low : Nat}
    (hm : Memory.wfFrom fill low m = true) : Memory.read fill (Memory.write fill m a b) a = b := by
  induction m generalizing low with
  | nil => by_cases hb : b = fill a <;> simp [Memory.write, Memory.read, hb]
  | cons e rest ih =>
    obtain ⟨e, c⟩ := e
    have hm' := hm
    simp only [Memory.wfFrom, Bool.and_eq_true, decide_eq_true_eq] at hm'
    simp only [Memory.write]
    split
    · next hlt =>
      split
      · next hb =>
        have : Memory.wfFrom fill e ((e, c) :: rest) = true := by
          simp [Memory.wfFrom, hm'.1.1.2, hm'.1.2, hm'.2]
        rw [Memory.read_of_wfFrom fill _ this hlt, hb]
      · simp [Memory.read]
    · split
      · next he =>
        subst he
        split
        · next hb => rw [Memory.read_of_wfFrom fill rest hm'.2 (by omega), hb]
        · simp [Memory.read]
      · next he =>
        have hne : e ≠ a := fun h => he h.symm
        simp only [Memory.read, hne, if_false]
        exact ih hm'.2

theorem Memory.read_write_same (fill : Nat → Byte) (m : Memory) (a : Nat) (b : Byte)
    (hm : Memory.wf fill m = true) : Memory.read fill (Memory.write fill m a b) a = b :=
  Memory.read_write_same_from fill m a b hm

/-- Lowering the bound keeps the form. -/
theorem Memory.wfFrom_mono (fill : Nat → Byte) (m : Memory) {low low' : Nat} (h : low' ≤ low)
    (hm : Memory.wfFrom fill low m = true) : Memory.wfFrom fill low' m = true := by
  cases m with
  | nil => rfl
  | cons e rest =>
    obtain ⟨e, c⟩ := e
    simp only [Memory.wfFrom, Bool.and_eq_true, decide_eq_true_eq] at hm ⊢
    exact ⟨⟨⟨by omega, hm.1.1.2⟩, hm.1.2⟩, hm.2⟩

/-- A write inside the 4096 bytes keeps the canonical form. -/
theorem Memory.write_wfFrom (fill : Nat → Byte) (m : Memory) {low a : Nat} (b : Byte) (hl : low ≤ a)
    (ha : a < memorySize) (hm : Memory.wfFrom fill low m = true) :
    Memory.wfFrom fill low (Memory.write fill m a b) = true := by
  induction m generalizing low with
  | nil =>
    by_cases hb : b = fill a
    · simp [Memory.write, hb, Memory.wfFrom]
    · simp [Memory.write, hb, Memory.wfFrom, hl, ha]
  | cons e rest ih =>
    obtain ⟨e, c⟩ := e
    have hm' := hm
    simp only [Memory.wfFrom, Bool.and_eq_true, decide_eq_true_eq] at hm'
    simp only [Memory.write]
    split
    · next hlt =>
      split
      · exact hm
      · next hb =>
        have hle : a + 1 ≤ e := hlt
        simp [Memory.wfFrom, hl, ha, hb, hle, hm'.1.1.2, hm'.1.2, hm'.2]
    · split
      · next he =>
        subst he
        split
        · exact Memory.wfFrom_mono fill rest (by omega) hm'.2
        · next hb => simp [Memory.wfFrom, hl, ha, hb, hm'.2]
      · simp only [Memory.wfFrom, Bool.and_eq_true, decide_eq_true_eq]
        exact ⟨⟨⟨hm'.1.1.1, hm'.1.1.2⟩, hm'.1.2⟩, ih (by omega) hm'.2⟩

theorem Memory.write_wf (fill : Nat → Byte) (m : Memory) {a : Nat} (b : Byte) (ha : a < memorySize)
    (hm : Memory.wf fill m = true) : Memory.wf fill (Memory.write fill m a b) = true :=
  Memory.write_wfFrom fill m b (Nat.zero_le a) ha hm

/-! ### Several bytes, at ascending addresses -/

/-- The stored bytes are the only ones that change. -/
theorem Memory.read_writeAll_other (fill : Nat → Byte) (bytes : List Byte) (m : Memory) {a k : Nat}
    (h : k < a ∨ a + bytes.length ≤ k) :
    Memory.read fill (Memory.writeAll fill m a bytes) k = Memory.read fill m k := by
  induction bytes generalizing m a with
  | nil => rfl
  | cons b bs ih =>
    simp only [List.length_cons] at h
    simp only [Memory.writeAll]
    rw [ih _ (by omega), Memory.read_write_other fill m b (by omega)]

theorem Memory.writeAll_wf (fill : Nat → Byte) (bytes : List Byte) (m : Memory) {a : Nat}
    (h : a + bytes.length ≤ memorySize) (hm : Memory.wf fill m = true) :
    Memory.wf fill (Memory.writeAll fill m a bytes) = true := by
  induction bytes generalizing m a with
  | nil => exact hm
  | cons b bs ih =>
    simp only [List.length_cons] at h
    exact ih _ (by omega) (Memory.write_wf fill m b (by omega) hm)

/-- The k-th stored byte is read back at its address. -/
theorem Memory.read_writeAll_inside (fill : Nat → Byte) (bytes : List Byte) (m : Memory) {a : Nat}
    (h : a + bytes.length ≤ memorySize) (hm : Memory.wf fill m = true) {k : Nat} (hk : k < bytes.length) :
    Memory.read fill (Memory.writeAll fill m a bytes) (a + k) = bytes[k] := by
  induction bytes generalizing m a k with
  | nil => simp at hk
  | cons b bs ih =>
    simp only [List.length_cons] at h hk
    simp only [Memory.writeAll]
    cases k with
    | zero =>
      rw [Memory.read_writeAll_other fill bs _ (by omega)]
      simp [Memory.read_write_same fill m a b hm]
    | succ k =>
      have := ih (Memory.write fill m a b) (a := a + 1) (by omega) (Memory.write_wf fill m b (by omega) hm)
        (k := k) (by omega)
      rw [show a + (k + 1) = a + 1 + k by omega, this]
      simp

@[simp] theorem Memory.readAll_length (fill : Nat → Byte) (m : Memory) (a n : Nat) :
    (Memory.readAll fill m a n).length = n := by
  induction n generalizing a with
  | zero => rfl
  | succ n ih => simp [Memory.readAll, ih]

theorem Memory.readAll_getElem (fill : Nat → Byte) (m : Memory) (a n : Nat) {k : Nat} (h : k < n) :
    (Memory.readAll fill m a n)[k]'(by simpa using h) = Memory.read fill m (a + k) := by
  induction n generalizing a k with
  | zero => omega
  | succ n ih =>
    cases k with
    | zero => simp [Memory.readAll]
    | succ k =>
      simp only [Memory.readAll, List.getElem_cons_succ]
      rw [ih (a + 1) (by omega)]
      congr 1
      omega

/-! ### Through the state -/

/-- Storing leaves every byte outside the stored ones as it was. -/
theorem State.byteAt_storeBytes_other (s : State) {a k : Nat} (bytes : List Byte)
    (h : k < a ∨ a + bytes.length ≤ k) : (s.storeBytes a bytes).byteAt k = s.byteAt k :=
  Memory.read_writeAll_other (resetByte s.config) bytes s.memory h

/-- The stored bytes are read back, when the memory is canonical and the store lies inside it. -/
theorem State.byteAt_storeBytes_inside (s : State) {a k : Nat} (bytes : List Byte) (hs : s.MemoryWf)
    (h : a + bytes.length ≤ memorySize) (hk : k < bytes.length) :
    (s.storeBytes a bytes).byteAt (a + k) = bytes[k] :=
  Memory.read_writeAll_inside (resetByte s.config) bytes s.memory h hs hk

@[simp] theorem State.bytesAt_length (s : State) (a n : Nat) : (s.bytesAt a n).length = n :=
  Memory.readAll_length _ _ _ _

theorem State.bytesAt_getElem (s : State) (a n : Nat) {k : Nat} (h : k < n) :
    (s.bytesAt a n)[k]'(by simpa using h) = s.byteAt (a + k) :=
  Memory.readAll_getElem (resetByte s.config) s.memory a n h

/-- `State.reset`'s memory is in the canonical form. -/
theorem State.reset_memoryWf : State.reset.MemoryWf := rfl

end Sys2Proof.Machine
end

