-- ==== Sys2Proof/Laws/Ops.lean ====
section
/-!
SUPPORT. What each shared operation can do, said once: how operations end, accesses through `I`, the call stack, blocks
of registers, the key vector.
-/
namespace Sys2Proof.Machine

/-! ### How an operation ends -/

@[simp] theorem complete_eq_next (s t : State) : complete s = .next t ↔ t = { s with result := .ok } := by
  simp [complete, eq_comm]

@[simp] theorem raise_eq_next (kind : Result) (s t : State) :
    raise kind s = .next t ↔ t = { s with result := kind } := by
  simp [raise, eq_comm]

/-! ### Access through `I` -/

/-- The bytes `a` to `a + n - 1` lie in `memory`, or there are none. -/
theorem outOfRange_eq_none (a n : Nat) : outOfRange a n = none ↔ n = 0 ∨ a + n ≤ memorySize := by
  unfold outOfRange
  split
  · simp; omega
  · simp; omega

/-- The access is out of range at the lowest address above 0xFFF that it would touch (R68). -/
theorem outOfRange_eq_some (a n e : Nat) :
    outOfRange a n = some e ↔ 0 < n ∧ memorySize < a + n ∧ e = max a memorySize := by
  unfold outOfRange
  split
  · next h => simp [h, eq_comm]
  · next h => simp; omega

/-- In range, the effect; out of range, the fault and nothing else (R68, R126). -/
theorem accessThroughI_cases {n : Nat} {s t : State} {effect : Nat → State}
    (h : accessThroughI n s effect = .next t) :
    ((n = 0 ∨ s.i.toNat + n ≤ memorySize) ∧ t = { effect s.i.toNat with result := .ok }) ∨
    (0 < n ∧ memorySize < s.i.toNat + n ∧
      t = { s with result := .memoryOutOfRange (max s.i.toNat memorySize) }) := by
  unfold accessThroughI at h
  split at h
  · next e he =>
    obtain ⟨hn, hm, rfl⟩ := (outOfRange_eq_some _ _ _).1 he
    exact .inr ⟨hn, hm, by simpa using h⟩
  · next he => exact .inl ⟨(outOfRange_eq_none _ _).1 he, by simpa using h⟩

theorem accessThroughI_inside {n : Nat} {s : State} (effect : Nat → State)
    (h : n = 0 ∨ s.i.toNat + n ≤ memorySize) :
    accessThroughI n s effect = .next { effect s.i.toNat with result := .ok } := by
  simp [accessThroughI, (outOfRange_eq_none _ _).2 h, complete]

theorem accessThroughI_outside {n : Nat} {s : State} (effect : Nat → State)
    (hn : 0 < n) (h : memorySize < s.i.toNat + n) :
    accessThroughI n s effect = .next { s with result := .memoryOutOfRange (max s.i.toNat memorySize) } := by
  simp [accessThroughI, (outOfRange_eq_some _ _ _).2 ⟨hn, h, rfl⟩, raise]

/-! ### The call stack -/

/-- A call pushes, overflows, or stops at an illegal `sp` (R32, R141). -/
theorem call_cases {target : Word} {s t : State} (h : call target s = .next t) :
    (∃ hs : s.sp.toNat < 16, t = { s with stack := s.stack.set s.sp.toNat s.pc, sp := s.sp + 1, pc := target, result := .ok }) ∨
    (s.sp.toNat = 16 ∧ t = { s with result := .stackOverflow }) := by
  unfold call at h
  split at h
  · next hs => exact .inl ⟨hs, by simpa using h⟩
  · split at h
    · next hs => exact .inr ⟨hs, by simpa using h⟩
    · cases h

/-- A return pops, underflows, or stops at an illegal `sp` (R32, R143). -/
theorem returnFromCall_cases {s t : State} (h : returnFromCall s = .next t) :
    (s.sp.toNat = 0 ∧ t = { s with result := .stackUnderflow }) ∨
    (∃ hs : 0 < s.sp.toNat ∧ s.sp.toNat ≤ 16,
      t = { s with pc := s.stack[s.sp.toNat - 1], sp := s.sp - 1, result := .ok }) := by
  unfold returnFromCall at h
  split at h
  · next hs => exact .inl ⟨hs, by simpa using h⟩
  · next hne =>
    split at h
    · next hs => exact .inr ⟨⟨by omega, hs⟩, by simpa using h⟩
    · cases h

/-! ### Skips on a key -/

theorem skipOnKey_cases {pressed : Bool} {x : Reg} {s t : State} (h : skipOnKey pressed x s = .next t) :
    (15 < (s.getV x).toNat ∧ t = { s with result := .keyIndexOutOfRange (s.getV x) }) ∨
    ((s.getV x).toNat ≤ 15 ∧
      t = { skipWhen (s.keyDown (s.getV x).toNat == pressed) s with result := .ok }) := by
  unfold skipOnKey at h
  split at h
  · next hv => exact .inl ⟨hv, by simpa using h⟩
  · next hv => exact .inr ⟨by omega, by simpa using h⟩

/-- The key found is down, is one of the sixteen, and no lower key is down (R224). -/
theorem State.firstKeyDown_eq_some {s : State} {k : Nat} (h : s.firstKeyDown = some k) :
    k < 16 ∧ s.keyDown k = true ∧ ∀ j < k, s.keyDown j = false := by
  unfold State.firstKeyDown at h
  obtain ⟨hp, as, bs, hsplit, hbefore⟩ := List.find?_eq_some_iff_append.1 h
  have hk : as.length = k ∧ k < 16 := by
    have hlen : as.length < (List.range 16).length := by rw [hsplit]; simp
    have hget : (List.range 16)[as.length]? = some k := by rw [hsplit]; simp
    rw [List.getElem?_range (by simpa using hlen)] at hget
    simp only [List.length_range] at hlen
    exact ⟨by simpa using hget, by simp at hget; omega⟩
  refine ⟨hk.2, hp, fun j hj => ?_⟩
  have hmem : j ∈ as := by
    have hget : (List.range 16)[j]? = some j := List.getElem?_range (by omega)
    rw [hsplit, List.getElem?_append_left (by omega)] at hget
    exact List.mem_of_getElem? hget
  simpa using hbefore j hmem

theorem State.firstKeyDown_eq_none {s : State} :
    s.firstKeyDown = none ↔ ∀ k < 16, s.keyDown k = false := by
  simp [State.firstKeyDown, List.find?_eq_none]

/-! ### Blocks of registers -/

theorem blockOf_length {n : Nat} (file : Vector Byte n) {count : Nat} (h : count ≤ n) :
    (blockOf file count).length = count := by
  simp [blockOf, h]

theorem blockOf_getElem {n : Nat} (file : Vector Byte n) {count k : Nat} (h : count ≤ n) (hk : k < count) :
    (blockOf file count)[k]'(by rw [blockOf_length file h]; exact hk) = file[k] := by
  simp [blockOf]

/-- A block write gives the k-th register of the block the k-th byte and leaves every other register alone. -/
theorem withBlock_getElem {n : Nat} (bytes : List Byte) (file : Vector Byte n) (start : Nat) {k : Nat} (hk : k < n) :
    (withBlock file start bytes)[k] =
      if h : start ≤ k ∧ k - start < bytes.length then bytes[k - start]'h.2 else file[k] := by
  induction bytes generalizing file start with
  | nil => simp [withBlock]
  | cons b bs ih =>
    simp only [withBlock, ih, List.length_cons]
    by_cases hks : k = start
    · subst hks
      simp
    · by_cases hlt : start < k
      · have hsub : k - start = (k - (start + 1)) + 1 := by omega
        by_cases hin : k - (start + 1) < bs.length
        · rw [dif_pos ⟨by omega, hin⟩, dif_pos ⟨by omega, by omega⟩]
          simp [hsub]
        · rw [dif_neg (by omega), dif_neg (by omega)]
          simp [Ne.symm hks]
      · rw [dif_neg (by omega), dif_neg (by omega)]
        simp [Ne.symm hks]

/-! ### Words -/

theorem word_add_two {w : Word} (h : w.toNat ≤ 0x1000) : (w + 2).toNat = w.toNat + 2 := by
  have : w.toNat + 2 < 65536 := by omega
  simp [BitVec.toNat_add, Nat.mod_eq_of_lt this]

/-- The flag byte is exactly 0x00 or 0x01 (R23). -/
theorem flagByte_cases (condition : Bool) : flagByte condition = 0 ∨ flagByte condition = 1 := by
  cases condition <;> simp [flagByte]

end Sys2Proof.Machine
end

