-- ==== Sys2Proof/Laws/PerInstr.lean ====
section
/-!
SUPPORT. Per instruction: the encoded word matches a row of the opcode map that reads the instruction's operands back
(R94, R97, R98, R112).
-/
namespace Sys2Proof.Laws.EncodesItsRow

/-- The word of a well-formed instruction matches a row, and the row's reading of that word is the instruction. -/
def Statement (i : Instr) : Prop :=
  i.wellFormed = true → ∃ p ∈ patterns true (encode i), encode i &&& p.mask = p.value ∧ p.instr = i

theorem cls : Statement .cls :=
  fun _ => ⟨⟨0xFFFF, 0x00E0, .cls⟩, by simp [patterns, basePatterns, extensionPatterns], by simp [encode], rfl⟩

theorem ret : Statement .ret :=
  fun _ => ⟨⟨0xFFFF, 0x00EE, .ret⟩, by simp [patterns, basePatterns, extensionPatterns], by simp [encode], rfl⟩

theorem jpNnn (nnn : Address) : Statement (.jpNnn nnn) :=
  fun _ => ⟨⟨0xF000, 0x1000, .jpNnn nnn⟩, by simp [patterns, basePatterns, extensionPatterns, encode, fieldNNN, BitVec.extractLsb'_or],
    by simp [encode, word_or_and], rfl⟩

theorem callNnn (nnn : Address) : Statement (.callNnn nnn) :=
  fun _ => ⟨⟨0xF000, 0x2000, .callNnn nnn⟩, by simp [patterns, basePatterns, extensionPatterns, encode, fieldNNN, BitVec.extractLsb'_or],
    by simp [encode, word_or_and], rfl⟩

theorem seVxKk (x : Reg) (kk : Byte) : Statement (.seVxKk x kk) :=
  fun _ => ⟨⟨0xF000, 0x3000, .seVxKk x kk⟩, by simp [patterns, basePatterns, extensionPatterns, encode, fieldX, fieldKK, BitVec.extractLsb'_or],
    by simp [encode, word_or_and], rfl⟩

theorem sneVxKk (x : Reg) (kk : Byte) : Statement (.sneVxKk x kk) :=
  fun _ => ⟨⟨0xF000, 0x4000, .sneVxKk x kk⟩, by simp [patterns, basePatterns, extensionPatterns, encode, fieldX, fieldKK, BitVec.extractLsb'_or],
    by simp [encode, word_or_and], rfl⟩

theorem seVxVy (x y : Reg) : Statement (.seVxVy x y) :=
  fun _ => ⟨⟨0xF00F, 0x5000, .seVxVy x y⟩, by simp [patterns, basePatterns, extensionPatterns, encode, fieldX, fieldY, BitVec.extractLsb'_or],
    by simp [encode, word_or_and], rfl⟩

theorem ldVxKk (x : Reg) (kk : Byte) : Statement (.ldVxKk x kk) :=
  fun _ => ⟨⟨0xF000, 0x6000, .ldVxKk x kk⟩, by simp [patterns, basePatterns, extensionPatterns, encode, fieldX, fieldKK, BitVec.extractLsb'_or],
    by simp [encode, word_or_and], rfl⟩

theorem addVxKk (x : Reg) (kk : Byte) : Statement (.addVxKk x kk) :=
  fun _ => ⟨⟨0xF000, 0x7000, .addVxKk x kk⟩, by simp [patterns, basePatterns, extensionPatterns, encode, fieldX, fieldKK, BitVec.extractLsb'_or],
    by simp [encode, word_or_and], rfl⟩

theorem ldVxVy (x y : Reg) : Statement (.ldVxVy x y) :=
  fun _ => ⟨⟨0xF00F, 0x8000, .ldVxVy x y⟩, by simp [patterns, basePatterns, extensionPatterns, encode, fieldX, fieldY, BitVec.extractLsb'_or],
    by simp [encode, word_or_and], rfl⟩

theorem orVxVy (x y : Reg) : Statement (.orVxVy x y) :=
  fun _ => ⟨⟨0xF00F, 0x8001, .orVxVy x y⟩, by simp [patterns, basePatterns, extensionPatterns, encode, fieldX, fieldY, BitVec.extractLsb'_or],
    by simp [encode, word_or_and], rfl⟩

theorem andVxVy (x y : Reg) : Statement (.andVxVy x y) :=
  fun _ => ⟨⟨0xF00F, 0x8002, .andVxVy x y⟩, by simp [patterns, basePatterns, extensionPatterns, encode, fieldX, fieldY, BitVec.extractLsb'_or],
    by simp [encode, word_or_and], rfl⟩

theorem xorVxVy (x y : Reg) : Statement (.xorVxVy x y) :=
  fun _ => ⟨⟨0xF00F, 0x8003, .xorVxVy x y⟩, by simp [patterns, basePatterns, extensionPatterns, encode, fieldX, fieldY, BitVec.extractLsb'_or],
    by simp [encode, word_or_and], rfl⟩

theorem addVxVy (x y : Reg) : Statement (.addVxVy x y) :=
  fun _ => ⟨⟨0xF00F, 0x8004, .addVxVy x y⟩, by simp [patterns, basePatterns, extensionPatterns, encode, fieldX, fieldY, BitVec.extractLsb'_or],
    by simp [encode, word_or_and], rfl⟩

theorem subVxVy (x y : Reg) : Statement (.subVxVy x y) :=
  fun _ => ⟨⟨0xF00F, 0x8005, .subVxVy x y⟩, by simp [patterns, basePatterns, extensionPatterns, encode, fieldX, fieldY, BitVec.extractLsb'_or],
    by simp [encode, word_or_and], rfl⟩

theorem shrVx (x y : Reg) : Statement (.shrVx x y) :=
  fun _ => ⟨⟨0xF00F, 0x8006, .shrVx x y⟩, by simp [patterns, basePatterns, extensionPatterns, encode, fieldX, fieldY, BitVec.extractLsb'_or],
    by simp [encode, word_or_and], rfl⟩

theorem subnVxVy (x y : Reg) : Statement (.subnVxVy x y) :=
  fun _ => ⟨⟨0xF00F, 0x8007, .subnVxVy x y⟩, by simp [patterns, basePatterns, extensionPatterns, encode, fieldX, fieldY, BitVec.extractLsb'_or],
    by simp [encode, word_or_and], rfl⟩

theorem shlVx (x y : Reg) : Statement (.shlVx x y) :=
  fun _ => ⟨⟨0xF00F, 0x800E, .shlVx x y⟩, by simp [patterns, basePatterns, extensionPatterns, encode, fieldX, fieldY, BitVec.extractLsb'_or],
    by simp [encode, word_or_and], rfl⟩

theorem sneVxVy (x y : Reg) : Statement (.sneVxVy x y) :=
  fun _ => ⟨⟨0xF00F, 0x9000, .sneVxVy x y⟩, by simp [patterns, basePatterns, extensionPatterns, encode, fieldX, fieldY, BitVec.extractLsb'_or],
    by simp [encode, word_or_and], rfl⟩

theorem ldINnn (nnn : Address) : Statement (.ldINnn nnn) :=
  fun _ => ⟨⟨0xF000, 0xA000, .ldINnn nnn⟩, by simp [patterns, basePatterns, extensionPatterns, encode, fieldNNN, BitVec.extractLsb'_or],
    by simp [encode, word_or_and], rfl⟩

theorem jpV0Nnn (nnn : Address) : Statement (.jpV0Nnn nnn) :=
  fun _ => ⟨⟨0xF000, 0xB000, .jpV0Nnn nnn⟩, by simp [patterns, basePatterns, extensionPatterns, encode, fieldNNN, BitVec.extractLsb'_or],
    by simp [encode, word_or_and], rfl⟩

theorem rndVxKk (x : Reg) (kk : Byte) : Statement (.rndVxKk x kk) :=
  fun _ => ⟨⟨0xF000, 0xC000, .rndVxKk x kk⟩, by simp [patterns, basePatterns, extensionPatterns, encode, fieldX, fieldKK, BitVec.extractLsb'_or],
    by simp [encode, word_or_and], rfl⟩

theorem drwVxVyN (x y : Reg) (n : Count) : Statement (.drwVxVyN x y n) :=
  fun _ => ⟨⟨0xF000, 0xD000, .drwVxVyN x y n⟩, by simp [patterns, basePatterns, extensionPatterns, encode, fieldX, fieldY, fieldN, BitVec.extractLsb'_or],
    by simp [encode, word_or_and], rfl⟩

theorem skpVx (x : Reg) : Statement (.skpVx x) :=
  fun _ => ⟨⟨0xF0FF, 0xE09E, .skpVx x⟩, by simp [patterns, basePatterns, extensionPatterns, encode, fieldX, BitVec.extractLsb'_or],
    by simp [encode, word_or_and], rfl⟩

theorem sknpVx (x : Reg) : Statement (.sknpVx x) :=
  fun _ => ⟨⟨0xF0FF, 0xE0A1, .sknpVx x⟩, by simp [patterns, basePatterns, extensionPatterns, encode, fieldX, BitVec.extractLsb'_or],
    by simp [encode, word_or_and], rfl⟩

theorem ldVxDt (x : Reg) : Statement (.ldVxDt x) :=
  fun _ => ⟨⟨0xF0FF, 0xF007, .ldVxDt x⟩, by simp [patterns, basePatterns, extensionPatterns, encode, fieldX, BitVec.extractLsb'_or],
    by simp [encode, word_or_and], rfl⟩

theorem ldVxK (x : Reg) : Statement (.ldVxK x) :=
  fun _ => ⟨⟨0xF0FF, 0xF00A, .ldVxK x⟩, by simp [patterns, basePatterns, extensionPatterns, encode, fieldX, BitVec.extractLsb'_or],
    by simp [encode, word_or_and], rfl⟩

theorem ldDtVx (x : Reg) : Statement (.ldDtVx x) :=
  fun _ => ⟨⟨0xF0FF, 0xF015, .ldDtVx x⟩, by simp [patterns, basePatterns, extensionPatterns, encode, fieldX, BitVec.extractLsb'_or],
    by simp [encode, word_or_and], rfl⟩

theorem ldStVx (x : Reg) : Statement (.ldStVx x) :=
  fun _ => ⟨⟨0xF0FF, 0xF018, .ldStVx x⟩, by simp [patterns, basePatterns, extensionPatterns, encode, fieldX, BitVec.extractLsb'_or],
    by simp [encode, word_or_and], rfl⟩

theorem addIVx (x : Reg) : Statement (.addIVx x) :=
  fun _ => ⟨⟨0xF0FF, 0xF01E, .addIVx x⟩, by simp [patterns, basePatterns, extensionPatterns, encode, fieldX, BitVec.extractLsb'_or],
    by simp [encode, word_or_and], rfl⟩

theorem ldFVx (x : Reg) : Statement (.ldFVx x) :=
  fun _ => ⟨⟨0xF0FF, 0xF029, .ldFVx x⟩, by simp [patterns, basePatterns, extensionPatterns, encode, fieldX, BitVec.extractLsb'_or],
    by simp [encode, word_or_and], rfl⟩

theorem ldBVx (x : Reg) : Statement (.ldBVx x) :=
  fun _ => ⟨⟨0xF0FF, 0xF033, .ldBVx x⟩, by simp [patterns, basePatterns, extensionPatterns, encode, fieldX, BitVec.extractLsb'_or],
    by simp [encode, word_or_and], rfl⟩

theorem ldMemVx (x : Reg) : Statement (.ldMemVx x) :=
  fun _ => ⟨⟨0xF0FF, 0xF055, .ldMemVx x⟩, by simp [patterns, basePatterns, extensionPatterns, encode, fieldX, BitVec.extractLsb'_or],
    by simp [encode, word_or_and], rfl⟩

theorem ldVxMem (x : Reg) : Statement (.ldVxMem x) :=
  fun _ => ⟨⟨0xF0FF, 0xF065, .ldVxMem x⟩, by simp [patterns, basePatterns, extensionPatterns, encode, fieldX, BitVec.extractLsb'_or],
    by simp [encode, word_or_and], rfl⟩

theorem scdN (n : Count) : Statement (.scdN n) :=
  fun _ => ⟨⟨0xFFF0, 0x00C0, .scdN n⟩, by simp [patterns, basePatterns, extensionPatterns, encode, fieldN, BitVec.extractLsb'_or],
    by simp [encode, word_or_and], rfl⟩

theorem scr : Statement .scr :=
  fun _ => ⟨⟨0xFFFF, 0x00FB, .scr⟩, by simp [patterns, basePatterns, extensionPatterns], by simp [encode], rfl⟩

theorem scl : Statement .scl :=
  fun _ => ⟨⟨0xFFFF, 0x00FC, .scl⟩, by simp [patterns, basePatterns, extensionPatterns], by simp [encode], rfl⟩

theorem exit : Statement .exit :=
  fun _ => ⟨⟨0xFFFF, 0x00FD, .exit⟩, by simp [patterns, basePatterns, extensionPatterns], by simp [encode], rfl⟩

theorem low : Statement .low :=
  fun _ => ⟨⟨0xFFFF, 0x00FE, .low⟩, by simp [patterns, basePatterns, extensionPatterns], by simp [encode], rfl⟩

theorem high : Statement .high :=
  fun _ => ⟨⟨0xFFFF, 0x00FF, .high⟩, by simp [patterns, basePatterns, extensionPatterns], by simp [encode], rfl⟩

theorem ldHfVx (x : Reg) : Statement (.ldHfVx x) :=
  fun _ => ⟨⟨0xF0FF, 0xF030, .ldHfVx x⟩, by simp [patterns, basePatterns, extensionPatterns, encode, fieldX, BitVec.extractLsb'_or],
    by simp [encode, word_or_and], rfl⟩

theorem ldRVx (x : Reg) : Statement (.ldRVx x) :=
  fun h => ⟨⟨0xF8FF, 0xF075, .ldRVx x⟩, by simp [patterns, basePatterns, extensionPatterns, encode, fieldX, BitVec.extractLsb'_or],
    by simp [encode, word_or_and, mask_low_register_atX x (by simpa [Instr.wellFormed] using h)], rfl⟩

theorem ldVxR (x : Reg) : Statement (.ldVxR x) :=
  fun h => ⟨⟨0xF8FF, 0xF085, .ldVxR x⟩, by simp [patterns, basePatterns, extensionPatterns, encode, fieldX, BitVec.extractLsb'_or],
    by simp [encode, word_or_and, mask_low_register_atX x (by simpa [Instr.wellFormed] using h)], rfl⟩

end Sys2Proof.Laws.EncodesItsRow
end

