-- ==== Sys2Proof/Laws/Video.lean ====
section
/-!
SUPPORT. The cells and the pixel grid: what clearing, toggling, scrolling and drawing do to each.
-/
namespace Sys2Proof.Machine

/-! ### One cell -/

/-- There is no cell beyond the stored ones. -/
theorem Video.cell_outside (g : Video) {p : Nat} (h : g.size ≤ p) : g.cell p = false := by
  have : g.length ≤ p / 128 := by unfold Video.size at h; omega
  simp [Video.cell, Video.line, this]

/-- Toggling changes its own cell and no other, and no cell is added (R232). -/
theorem Video.cell_toggle (g : Video) (p q : Nat) :
    (g.toggle p).cell q = (g.cell q ^^ (decide (q = p) && decide (p < g.size))) := by
  have hlt : p / 128 < g.length ↔ p < g.size := by unfold Video.size; omega
  simp only [Video.cell, Video.toggle, Video.line, List.getD_eq_getElem?_getD, List.getElem?_set]
  by_cases hl : p / 128 = q / 128
  · by_cases hp : p < g.size
    · have hp' : q / 128 < g.length := hl ▸ hlt.2 hp
      have hb : q % 128 = p % 128 ↔ q = p := by omega
      simp [hl, hp, hp', hb, Nat.mod_lt]
    · have hp' : ¬ q / 128 < g.length := fun h => hp (hlt.1 (hl ▸ h))
      simp [hl, hp, hp']
  · have hne : q ≠ p := fun h => hl (by rw [h])
    simp [hl, hne]

@[simp] theorem Video.size_toggle (g : Video) (p : Nat) : (g.toggle p).size = g.size := by
  simp [Video.size, Video.toggle]

@[simp] theorem Video.size_cleared (g : Video) : g.cleared.size = g.size := by
  simp [Video.size, Video.cleared]

@[simp] theorem Video.cell_cleared (g : Video) (p : Nat) : g.cleared.cell p = false := by
  simp [Video.cell, Video.line, Video.cleared, List.getD_eq_getElem?_getD, List.getElem?_replicate]
  split <;> simp

@[simp] theorem Video.size_dark (schip : Bool) : (Video.dark schip).size = cellCount schip := by
  cases schip <;> simp [Video.size, Video.dark, cellCount]

@[simp] theorem Video.cell_dark (schip : Bool) (p : Nat) : (Video.dark schip).cell p = false := by
  simp [Video.cell, Video.line, Video.dark, List.getD_eq_getElem?_getD, List.getElem?_replicate]
  split <;> simp

/-! ### The active grid -/

/-- Inside the grid a pixel is the cell at its linear position (R46). -/
theorem Video.pix_inside (g : Video) {w h x y : Nat} (hx : x < w) (hy : y < h) :
    g.pix w h x y = g.cell (linearPosition w x y) := by
  simp [Video.pix, hx, hy]

theorem Video.pix_outside (g : Video) {w h x y : Nat} (hxy : ¬(x < w ∧ y < h)) : g.pix w h x y = false := by
  simp [Video.pix]; omega

@[simp] theorem Video.pix_cleared (g : Video) (w h x y : Nat) : g.cleared.pix w h x y = false := by
  simp [Video.pix]

/-- The pixels of the grid are the first w * h cells. -/
theorem linearPosition_lt {w h x y : Nat} (hx : x < w) (hy : y < h) : linearPosition w x y < w * h := by
  unfold linearPosition
  calc y * w + x < (y + 1) * w := by rw [Nat.add_mul]; omega
    _ ≤ h * w := Nat.mul_le_mul_right w hy
    _ = w * h := Nat.mul_comm h w

/-- Two pixels of one grid at one linear position are the same pixel. -/
theorem linearPosition_inj {w x y a b : Nat} (hx : x < w) (ha : a < w)
    (h : linearPosition w x y = linearPosition w a b) : x = a ∧ y = b := by
  unfold linearPosition at h
  have hm := congrArg (· % w) h
  simp only [Nat.mul_add_mod_self_right, Nat.mod_eq_of_lt hx, Nat.mod_eq_of_lt ha] at hm
  refine ⟨hm, Nat.eq_of_mul_eq_mul_right (show 0 < w by omega) (by omega)⟩

/-- Toggling a pixel changes it, where it has a cell, and no other (R232). -/
theorem Video.pix_toggle (g : Video) {w h a b : Nat} (ha : a < w) (x y : Nat) (hb : b < h) :
    (g.toggle (linearPosition w a b)).pix w h x y =
      (g.pix w h x y ^^ (decide (x = a ∧ y = b) && decide (linearPosition w a b < g.size))) := by
  by_cases hxy : x < w ∧ y < h
  · rw [Video.pix_inside _ hxy.1 hxy.2, Video.pix_inside _ hxy.1 hxy.2, Video.cell_toggle]
    have : linearPosition w x y = linearPosition w a b ↔ x = a ∧ y = b :=
      ⟨linearPosition_inj hxy.1 ha, fun h => by rw [h.1, h.2]⟩
    simp only [this]
  · rw [Video.pix_outside _ hxy, Video.pix_outside _ hxy]
    have : ¬(x = a ∧ y = b) := fun h => hxy ⟨h.1 ▸ ha, h.2 ▸ hb⟩
    simp [this]

@[simp] theorem Video.size_withActive (g : Video) (w h : Nat) (active : Nat → Strip) :
    (g.withActive w h active).size = g.size := by
  simp [Video.size, Video.withActive]

/-- A strip, bit by bit, is the cells at its positions. -/
theorem Video.strip_getLsbD (g : Video) {k b : Nat} (hb : b < 64) :
    (g.strip k).getLsbD b = g.cell (64 * k + b) := by
  rw [Video.strip, BitVec.getLsbD_extractLsb', Video.cell, show (64 * k + b) / 128 = k / 2 by omega,
    show (64 * k + b) % 128 = 64 * (k % 2) + b by omega]
  simp [hb]

/-- The lines of the active grid are the given ones, as far as they are stored; every other line is as before. -/
theorem Video.line_withActive (g : Video) (w h : Nat) (active : Nat → Strip) (l : Nat) :
    (g.withActive w h active).line l =
      if l < w * h / 128 ∧ l < g.length then active (2 * l + 1) ++ active (2 * l) else g.line l := by
  simp only [Video.line, Video.withActive, List.getD_eq_getElem?_getD, List.getElem?_map]
  by_cases hl : l < g.length
  · simp [hl]
  · simp [hl]

/-- Cells outside the active grid are as before. -/
theorem Video.cell_withActive_outside (g : Video) {w h p : Nat} (active : Nat → Strip) (hp : w * h ≤ p) :
    (g.withActive w h active).cell p = g.cell p := by
  have : ¬ p / 128 < w * h / 128 := by
    have := Nat.div_le_div_right (c := 128) hp
    omega
  simp [Video.cell, Video.line_withActive, this]

/-- A cell of the active grid is the bit of its strip. -/
theorem Video.cell_withActive_inside (g : Video) {w h p : Nat} (active : Nat → Strip) (hg : 128 ∣ w * h)
    (hp : p < w * h) (hs : w * h ≤ g.size) :
    (g.withActive w h active).cell p = (active (p / 64)).getLsbD (p % 64) := by
  have hl : p / 128 < w * h / 128 ∧ p / 128 < g.length := by
    have := Nat.mul_div_cancel' hg
    unfold Video.size at hs
    omega
  rw [Video.cell, Video.line_withActive, if_pos hl, BitVec.getLsbD_append]
  by_cases hc : p % 128 < 64
  · rw [if_pos hc, show 2 * (p / 128) = p / 64 by omega, show p % 128 = p % 64 by omega]
  · rw [if_neg hc, show 2 * (p / 128) + 1 = p / 64 by omega, show p % 128 - 64 = p % 64 by omega]

theorem linearPosition_strip {k x y : Nat} :
    linearPosition (64 * k) x y / 64 = y * k + x / 64 ∧ linearPosition (64 * k) x y % 64 = x % 64 := by
  rw [linearPosition, show y * (64 * k) = 64 * (y * k) by ring, Nat.mul_add_div (by decide), Nat.mul_add_mod]
  exact ⟨rfl, rfl⟩

/-- A pixel of the active grid is the bit of its strip. -/
theorem Video.pix_withActive (g : Video) {k h x y : Nat} (active : Nat → Strip) (hd : 128 ∣ 64 * k * h)
    (hx : x < 64 * k) (hy : y < h) (hg : 64 * k * h ≤ g.size) :
    (g.withActive (64 * k) h active).pix (64 * k) h x y =
      (active (y * k + x / 64)).getLsbD (x % 64) := by
  rw [Video.pix_inside _ hx hy, Video.cell_withActive_inside g active hd (linearPosition_lt hx hy) hg,
    linearPosition_strip.1, linearPosition_strip.2]

/-- The bit of a strip that a pixel of the grid is. -/
theorem Video.strip_pix (g : Video) {k h x y : Nat} (hx : x < 64 * k) (hy : y < h) :
    (g.strip (y * k + x / 64)).getLsbD (x % 64) = g.pix (64 * k) h x y := by
  rw [Video.pix_inside _ hx hy, Video.strip_getLsbD _ (Nat.mod_lt _ (by decide)),
    ← (linearPosition_strip (k := k) (x := x) (y := y)).1, ← (linearPosition_strip (k := k) (x := x) (y := y)).2,
    Nat.div_add_mod]

/-- Scrolling down (R252). -/
theorem Video.pix_scrollDown (g : Video) {k h x y : Nat} (n : Nat) (hd : 128 ∣ 64 * k * h) (hx : x < 64 * k) (hy : y < h)
    (hg : 64 * k * h ≤ g.size) :
    (g.scrollDown (64 * k) h n).pix (64 * k) h x y = if n ≤ y then g.pix (64 * k) h x (y - n) else false := by
  unfold Video.scrollDown
  rw [Video.pix_withActive _ _ hd hx hy hg, Nat.mul_div_cancel_left k (by decide : 0 < 64)]
  by_cases hn : n ≤ y
  · have hle : n * k ≤ y * k := Nat.mul_le_mul_right k hn
    rw [if_pos (by omega), if_pos hn, show y * k + x / 64 - n * k = (y - n) * k + x / 64 by
      rw [Nat.sub_mul]; omega]
    exact Video.strip_pix g hx (by omega)
  · have hle : (y + 1) * k ≤ n * k := Nat.mul_le_mul_right k (by omega)
    rw [Nat.add_mul] at hle
    rw [if_neg (by omega), if_neg hn]
    simp

/-- Scrolling right (R254). -/
theorem Video.pix_scrollRight (g : Video) {k h x y : Nat} (hd : 128 ∣ 64 * k * h) (hx : x < 64 * k) (hy : y < h)
    (hg : 64 * k * h ≤ g.size) :
    (g.scrollRight (64 * k) h).pix (64 * k) h x y = if 4 ≤ x then g.pix (64 * k) h (x - 4) y else false := by
  unfold Video.scrollRight
  rw [Video.pix_withActive _ _ hd hx hy hg, Nat.mul_div_cancel_left k (by decide : 0 < 64), Nat.mul_comm y k,
    Nat.mul_add_mod, Nat.mod_eq_of_lt (show x / 64 < k by omega), Nat.mul_comm k y, BitVec.getLsbD_or,
    BitVec.getLsbD_shiftLeft]
  by_cases hx4 : 4 ≤ x
  · rw [if_pos hx4, ← Video.strip_pix g (show x - 4 < 64 * k by omega) hy]
    by_cases hc : 4 ≤ x % 64
    · rw [show (x - 4) / 64 = x / 64 by omega, show (x - 4) % 64 = x % 64 - 4 by omega]
      have h60 : ∀ b : Strip, (b >>> 60).getLsbD (x % 64) = false := fun b => by
        rw [BitVec.getLsbD_ushiftRight]; exact BitVec.getLsbD_of_ge _ _ (by omega)
      have : x % 64 < 64 := Nat.mod_lt _ (by decide)
      have hlt : ¬ x % 64 < 4 := by omega
      split
      · simp [hlt, this]
      · rw [h60]; simp [hlt, this]
    · have hx64 : x / 64 ≠ 0 := by omega
      rw [if_neg hx64, show y * k + x / 64 - 1 = y * k + (x - 4) / 64 by omega,
        BitVec.getLsbD_ushiftRight, show 60 + x % 64 = (x - 4) % 64 by omega]
      simp [show x % 64 < 4 by omega]
  · rw [if_neg hx4, if_pos (by omega)]
    simp [show x % 64 < 4 by omega]

/-- Scrolling left (R256). -/
theorem Video.pix_scrollLeft (g : Video) {k h x y : Nat} (hd : 128 ∣ 64 * k * h) (hx : x < 64 * k) (hy : y < h)
    (hg : 64 * k * h ≤ g.size) :
    (g.scrollLeft (64 * k) h).pix (64 * k) h x y =
      if x + 4 < 64 * k then g.pix (64 * k) h (x + 4) y else false := by
  unfold Video.scrollLeft
  rw [Video.pix_withActive _ _ hd hx hy hg, Nat.mul_div_cancel_left k (by decide : 0 < 64),
    Nat.add_assoc, Nat.mul_comm y k, Nat.mul_add_mod, Nat.mul_comm k y, BitVec.getLsbD_or,
    BitVec.getLsbD_ushiftRight]
  have hm : x % 64 < 64 := Nat.mod_lt _ (by decide)
  by_cases hc : 4 + x % 64 < 64
  · have h60 : ∀ b : Strip, (b <<< 60).getLsbD (x % 64) = false := fun b => by
      simp [BitVec.getLsbD_shiftLeft, show x % 64 < 60 by omega]
    rw [if_pos (show x + 4 < 64 * k by omega), ← Video.strip_pix g (show x + 4 < 64 * k by omega) hy,
      show (x + 4) / 64 = x / 64 by omega, show (x + 4) % 64 = 4 + x % 64 by omega]
    split <;> simp [h60]
  · rw [BitVec.getLsbD_of_ge _ _ (by omega), Bool.false_or]
    by_cases hlast : x + 4 < 64 * k
    · rw [if_pos hlast, ← Video.strip_pix g hlast hy, Nat.mod_eq_of_lt (show x / 64 + 1 < k by omega),
        if_neg (by omega), show x / 64 + 1 = (x + 4) / 64 by omega, BitVec.getLsbD_shiftLeft,
        show x % 64 - 60 = (x + 4) % 64 by omega]
      simp [hm, show ¬ x % 64 < 60 by omega]
    · rw [if_neg hlast, show x / 64 + 1 = k by omega, Nat.mod_self, if_pos rfl]
      simp

/-- `darkOutside` says that every cell beyond the active grid is 0. -/
theorem Video.darkOutside_iff (g : Video) {w h : Nat} (hd : 128 ∣ w * h) :
    g.darkOutside w h = true ↔ ∀ p, w * h ≤ p → g.cell p = false := by
  have hd := Nat.mul_div_cancel' hd
  constructor
  · intro ha p hp
    by_cases hl : p / 128 < g.length
    · have := List.all_eq_true.1 ha (p / 128) (by simpa using hl)
      simp only [Bool.or_eq_true, decide_eq_true_eq, beq_iff_eq] at this
      rcases this with h1 | h1
      · omega
      · simp [Video.cell, h1]
    · exact Video.cell_outside g (by unfold Video.size; omega)
  · intro hc
    refine List.all_eq_true.2 fun l _ => ?_
    by_cases hl : l < w * h / 128
    · simp [hl]
    · have : g.line l = 0 := by
        refine BitVec.eq_of_getLsbD_eq fun i hi => ?_
        have := hc (128 * l + i) (by omega)
        rw [Video.cell, Nat.mul_add_div (by decide), Nat.mul_add_mod, Nat.div_eq_of_lt hi, Nat.mod_eq_of_lt hi,
          Nat.add_zero] at this
        simpa using this
      simp [this]

theorem Video.darkOutside_cleared (g : Video) {w h : Nat} (hd : 128 ∣ w * h) :
    g.cleared.darkOutside w h = true := by
  rw [Video.darkOutside_iff _ hd]; simp

theorem Video.darkOutside_dark (schip : Bool) {w h : Nat} (hd : 128 ∣ w * h) :
    (Video.dark schip).darkOutside w h = true := by
  rw [Video.darkOutside_iff _ hd]; simp

/-- What moves pixels of the active grid only leaves the cells outside it 0. -/
theorem Video.darkOutside_withActive (g : Video) {w h : Nat} (hd : 128 ∣ w * h) (active : Nat → Strip)
    (ho : g.darkOutside w h = true) : (g.withActive w h active).darkOutside w h = true := by
  rw [Video.darkOutside_iff _ hd] at ho ⊢
  intro p hp
  rw [Video.cell_withActive_outside _ _ hp]
  exact ho p hp

theorem gridWidth_eq (e : Bool) : gridWidth e = 64 * (if e then 2 else 1) := by cases e <;> rfl

/-- The active grid is whole lines in both modes. -/
theorem gridCells_dvd (e : Bool) : 128 ∣ gridWidth e * gridHeight e := by cases e <;> decide

theorem gridWidth_le (e : Bool) : 64 ≤ gridWidth e ∧ gridWidth e ≤ 128 := by cases e <;> decide

theorem gridHeight_le (e : Bool) : 32 ≤ gridHeight e ∧ gridHeight e ≤ 64 := by cases e <;> decide

/-- A well-typed state stores every cell of its active grid (R39, R46). -/
theorem State.WellTyped.videoCovers {s : State} (h : s.WellTyped) : s.VideoCovers := by
  unfold State.WellTyped Snapshot.wellTyped at h
  simp only [Bool.and_eq_true, decide_eq_true_eq] at h
  obtain ⟨⟨_, hsize⟩, hext⟩ := h
  unfold State.VideoCovers State.width State.height
  rw [hsize]
  cases hs : s.config.schip <;> cases he : s.extendedGraphicsMode <;>
    simp_all [cellCount, gridWidth, gridHeight]

/-! ### Drawing -/

/-- The store is as large after plotting, and cells outside the plotted points keep their values. -/
theorem Canvas.plot_all_store (w h : Nat) (points : List (Nat × Nat)) (c : Canvas)
    (hb : ∀ p ∈ points, p.1 < w ∧ p.2 < h) :
    (points.foldl (fun c p => c.plot (linearPosition w p.1 p.2)) c).video.size = c.video.size ∧
    ∀ q, w * h ≤ q →
      (points.foldl (fun c p => c.plot (linearPosition w p.1 p.2)) c).video.cell q = c.video.cell q := by
  induction points generalizing c with
  | nil => simp
  | cons p ps ih =>
    obtain ⟨hs, hc⟩ := ih (c.plot (linearPosition w p.1 p.2)) fun q hq => hb q (by simp [hq])
    refine ⟨by rw [List.foldl_cons, hs]; simp [Canvas.plot], fun q hq => ?_⟩
    have hp := hb p (by simp)
    have hlt := linearPosition_lt hp.1 hp.2
    rw [List.foldl_cons, hc q hq]
    simp [Canvas.plot, Video.cell_toggle, show q ≠ linearPosition w p.1 p.2 by omega]

/-- Plotting distinct pixels: each that has a cell is toggled once, and the collision is that one of them was set before
(R233). -/
theorem Canvas.plot_all (w h : Nat) (points : List (Nat × Nat)) (c : Canvas) (hn : points.Nodup)
    (hb : ∀ p ∈ points, p.1 < w ∧ p.2 < h) :
    (∀ x y, (points.foldl (fun c p => c.plot (linearPosition w p.1 p.2)) c).video.pix w h x y =
      (c.video.pix w h x y ^^ (decide ((x, y) ∈ points) && decide (linearPosition w x y < c.video.size)))) ∧
    (points.foldl (fun c p => c.plot (linearPosition w p.1 p.2)) c).collision =
      (c.collision || points.any fun p => c.video.pix w h p.1 p.2) := by
  induction points generalizing c with
  | nil => simp
  | cons p ps ih =>
    obtain ⟨hp, hps⟩ := List.nodup_cons.1 hn
    have hbp := hb p (by simp)
    obtain ⟨hpix, hcol⟩ := ih (c.plot (linearPosition w p.1 p.2)) hps fun q hq => hb q (by simp [hq])
    constructor
    · intro x y
      rw [List.foldl_cons, hpix]
      simp only [Canvas.plot, Video.pix_toggle _ hbp.1 x y hbp.2, Video.size_toggle]
      by_cases hxy : (x, y) = p
      · subst hxy; simp [hp]
      · have : ¬(x = p.1 ∧ y = p.2) := fun h => hxy (Prod.ext h.1 h.2)
        simp [hxy, this]
    · rw [List.foldl_cons, hcol, List.any_cons, ← Bool.or_assoc]
      congr 1
      · simp [Canvas.plot, Video.pix_inside _ hbp.1 hbp.2]
      · rw [Bool.eq_iff_iff, List.any_eq_true, List.any_eq_true]
        refine exists_congr fun q => and_congr_right fun hq => ?_
        have : ¬(q.1 = p.1 ∧ q.2 = p.2) := fun h => hp (by rwa [← Prod.ext h.1 h.2])
        simp [Canvas.plot, Video.pix_toggle _ hbp.1 q.1 q.2 hbp.2, this]

/-- The targets of one sprite row's 1 bits (R231, R234). -/
def rowPoints (w x0 y : Nat) (b : Byte) : List (Nat × Nat) :=
  ((List.range 8).filter fun k => b.getLsbD (7 - k)).map fun k => ((x0 + k) % w, y)

/-- The targets of a sprite's 1 bits, row after row. -/
def spritePoints (w h x0 y0 : Nat) : List Byte → List (Nat × Nat)
  | [] => []
  | b :: bs => rowPoints w x0 (y0 % h) b ++ spritePoints w h x0 (y0 + 1) bs

theorem Canvas.drawRow_eq (w x0 y : Nat) (b : Byte) (c : Canvas) :
    c.drawRow w x0 y b = (rowPoints w x0 y b).foldl (fun c p => c.plot (linearPosition w p.1 p.2)) c := by
  simp [Canvas.drawRow, rowPoints, List.foldl_map, List.foldl_filter]

theorem Canvas.drawRows_eq (w h x0 : Nat) (bytes : List Byte) (y0 : Nat) (c : Canvas) :
    Canvas.drawRows w h x0 y0 bytes c =
      (spritePoints w h x0 y0 bytes).foldl (fun c p => c.plot (linearPosition w p.1 p.2)) c := by
  induction bytes generalizing y0 c with
  | nil => rfl
  | cons b bs ih => simp [Canvas.drawRows, spritePoints, Canvas.drawRow_eq, ih]

theorem mem_rowPoints {w x0 y : Nat} {b : Byte} {p : Nat × Nat} :
    p ∈ rowPoints w x0 y b ↔
      ∃ k < 8, b.getLsbD (7 - k) = true ∧ p.1 = (x0 + k) % w ∧ p.2 = y := by
  simp only [rowPoints, List.mem_map, List.mem_filter, List.mem_range, Prod.ext_iff]
  constructor
  · rintro ⟨k, ⟨hk, hbit⟩, hx, hy⟩; exact ⟨k, hk, hbit, hx.symm, hy.symm⟩
  · rintro ⟨k, hk, hbit, hx, hy⟩; exact ⟨k, ⟨hk, hbit⟩, hx.symm, hy.symm⟩

theorem mem_spritePoints {w h x0 : Nat} {bytes : List Byte} {y0 : Nat} {p : Nat × Nat} :
    p ∈ spritePoints w h x0 y0 bytes ↔
      ∃ r c, ∃ hr : r < bytes.length, c < 8 ∧ bytes[r].getLsbD (7 - c) = true ∧
        p.1 = (x0 + c) % w ∧ p.2 = (y0 + r) % h := by
  induction bytes generalizing y0 with
  | nil => simp [spritePoints]
  | cons b bs ih =>
    simp only [spritePoints, List.mem_append, mem_rowPoints, ih]
    constructor
    · rintro (⟨k, hk, hbit, hx, hy⟩ | ⟨r, c, hr, hc, hbit, hx, hy⟩)
      · exact ⟨0, k, by simp, hk, by simpa using hbit, hx, hy⟩
      · exact ⟨r + 1, c, by simpa using hr, hc, by simpa using hbit, hx, by rw [hy]; congr 1; omega⟩
    · rintro ⟨r, c, hr, hc, hbit, hx, hy⟩
      cases r with
      | zero => exact .inl ⟨c, hc, by simpa using hbit, hx, hy⟩
      | succ r =>
        exact .inr ⟨r, c, by simpa using hr, hc, by simpa using hbit, hx, by rw [hy]; congr 1; omega⟩

/-- Two offsets below a modulus that land on the same place are equal. -/
theorem offset_inj {m a j k : Nat} (hj : j < m) (hk : k < m) (h : (a + j) % m = (a + k) % m) : j = k := by
  have := Nat.ModEq.add_left_cancel' a (h : a + j ≡ a + k [MOD m])
  rwa [Nat.ModEq, Nat.mod_eq_of_lt hj, Nat.mod_eq_of_lt hk] at this

theorem rowPoints_nodup {w x0 y : Nat} {b : Byte} (hw : 8 ≤ w) : (rowPoints w x0 y b).Nodup := by
  unfold rowPoints
  refine (List.nodup_range.filter _).map_on ?_
  intro j hj k hk h
  simp only [List.mem_filter, List.mem_range] at hj hk
  exact offset_inj (by omega) (by omega) (Prod.ext_iff.1 h).1

/-- The targets of a sprite no taller than the grid are pairwise distinct, wrapped or not (R233). -/
theorem spritePoints_nodup {w h x0 : Nat} {bytes : List Byte} {y0 : Nat} (hw : 8 ≤ w) (hh : bytes.length ≤ h) :
    (spritePoints w h x0 y0 bytes).Nodup := by
  induction bytes generalizing y0 with
  | nil => simp [spritePoints]
  | cons b bs ih =>
    simp only [List.length_cons] at hh
    refine List.Nodup.append (rowPoints_nodup hw) (ih (by omega)) ?_
    intro p hp hq
    obtain ⟨_, _, _, _, hy⟩ := mem_rowPoints.1 hp
    obtain ⟨r, _, hr, _, _, _, hy'⟩ := mem_spritePoints.1 hq
    have := offset_inj (m := h) (a := y0) (j := 0) (k := r + 1) (by omega) (by omega)
      (by rw [Nat.add_zero, ← hy, hy']; congr 1; omega)
    omega

theorem spritePoints_inside {w h x0 y0 : Nat} {bytes : List Byte} (hw : 0 < w) (hh : 0 < h) :
    ∀ p ∈ spritePoints w h x0 y0 bytes, p.1 < w ∧ p.2 < h := fun p hp => by
  obtain ⟨r, k, hr, _, _, hx, hy⟩ := mem_spritePoints.1 hp
  exact ⟨by rw [hx]; exact Nat.mod_lt _ hw, by rw [hy]; exact Nat.mod_lt _ hh⟩

/-- A sprite of at most 16 rows drawn on the state's active grid: every covered pixel that has a cell is toggled, every
other keeps its value, and the collision is that a covered pixel was set (R232, R233, R234). -/
theorem State.drawn_spec (s : State) (x0 y0 : Byte) {bytes : List Byte} (hb : bytes.length ≤ 16) :
    (∀ x y, (s.drawn x0 y0 bytes).video.pix s.width s.height x y =
      (s.pix x y ^^ (decide ((x, y) ∈ spritePoints s.width s.height x0.toNat y0.toNat bytes) &&
        decide (linearPosition s.width x y < s.videoMemory.size)))) ∧
    (s.drawn x0 y0 bytes).collision =
      (spritePoints s.width s.height x0.toNat y0.toNat bytes).any fun p => s.pix p.1 p.2 := by
  have hw := (gridWidth_le s.extendedGraphicsMode).1
  have hh := (gridHeight_le s.extendedGraphicsMode).1
  have := Canvas.plot_all s.width s.height _ ⟨s.videoMemory, false⟩
    (spritePoints_nodup (x0 := x0.toNat) (y0 := y0.toNat) (bytes := bytes) (w := s.width) (h := s.height)
      (by unfold State.width; omega) (by unfold State.height; omega))
    (spritePoints_inside (by unfold State.width; omega) (by unfold State.height; omega))
  rw [State.drawn, Canvas.drawRows_eq]
  simpa [State.pix] using this

/-- Drawing adds no cell and leaves the cells outside the active grid alone. -/
theorem State.drawn_store (s : State) (x0 y0 : Byte) (bytes : List Byte) :
    (s.drawn x0 y0 bytes).video.size = s.videoMemory.size ∧
    ∀ q, s.width * s.height ≤ q → (s.drawn x0 y0 bytes).video.cell q = s.videoMemory.cell q := by
  have hw := (gridWidth_le s.extendedGraphicsMode).1
  have hh := (gridHeight_le s.extendedGraphicsMode).1
  rw [State.drawn, Canvas.drawRows_eq]
  exact Canvas.plot_all_store s.width s.height _ ⟨s.videoMemory, false⟩
    (spritePoints_inside (by unfold State.width; omega) (by unfold State.height; omega))

/-- The points drawn are the pixels the sprite in memory covers (R231, R234). -/
theorem State.mem_spritePoints_iff (s : State) (x0 y0 : Byte) (n x y : Nat) :
    (x, y) ∈ spritePoints s.width s.height x0.toNat y0.toNat (s.bytesAt s.i.toNat n) ↔
      SpriteCovers s x0 y0 n x y := by
  rw [mem_spritePoints]
  constructor
  · rintro ⟨r, c, hr, hc, hbit, hx, hy⟩
    have hr' : r < n := by simpa using hr
    rw [State.bytesAt_getElem s _ n hr'] at hbit
    exact ⟨r, c, hr', hc, hx, hy, hbit⟩
  · rintro ⟨r, c, hr, hc, hx, hy, hbit⟩
    exact ⟨r, c, by simpa using hr, hc, by rwa [State.bytesAt_getElem s _ n hr], hx, hy⟩

/-- Drawing leaves the cells outside the active grid 0. -/
theorem State.darkOutside_drawn (s : State) (x0 y0 : Byte) (bytes : List Byte)
    (hd : s.videoMemory.darkOutside s.width s.height = true) :
    (s.drawn x0 y0 bytes).video.darkOutside s.width s.height = true := by
  have hg : 128 ∣ s.width * s.height := gridCells_dvd s.extendedGraphicsMode
  rw [Video.darkOutside_iff _ hg] at hd ⊢
  intro p hp
  rw [(s.drawn_store x0 y0 bytes).2 p hp]
  exact hd p hp

end Sys2Proof.Machine
end

