-- ==== Sys2Proof/Laws/Step.lean ====
section
/-!
SUPPORT. What a move of the machine can be, said once (R7, R120, R121, R124).
-/
namespace Sys2Proof.Machine

theorem step_nothing_scheduled {s : State} (h : s.schedule = []) : step s = stepInstruction s := by
  unfold step
  split
  · rfl
  · next e => rw [h] at e; cases e

theorem step_scheduled {s : State} {op : Operation} {rest : List Operation} (h : s.schedule = op :: rest) :
    step s = operate op { s with schedule := rest } := by
  unfold step
  split
  · next e => rw [h] at e; cases e
  · next e => rw [h] at e; cases e; rfl

/-- A move that is a `step()`, called by the driver or at the head of the schedule. -/
theorem step_stepIsNext {s : State} (h : s.StepIsNext) : step s = stepInstruction s.dequeued := by
  rcases h with h | h
  · have hd : s.dequeued = s := by unfold State.dequeued; rw [h, List.tail_nil, ← h]
    rw [step_nothing_scheduled h, hd]
  · obtain ⟨rest, hs⟩ := List.head?_eq_some_iff.1 h
    rw [step_scheduled hs]
    simp [State.dequeued, hs, operate]

theorem stepInstruction_outside {s : State} (h : 0x0FFE < s.pc.toNat) :
    stepInstruction s = .next { s with result := .memoryOutOfRange (max s.pc.toNat memorySize) } := by
  unfold stepInstruction
  rw [if_pos h]
  rfl

theorem stepInstruction_decoded {s : State} {i : Instr} (h : s.pc.toNat ≤ 0x0FFE)
    (hd : decode s.config.schip s.fetchWord = .ok i) : stepInstruction s = exec i s.advance := by
  unfold stepInstruction
  rw [if_neg (by omega), hd]

theorem stepInstruction_unknown {s : State} {e : Reject} (h : s.pc.toNat ≤ 0x0FFE)
    (hd : decode s.config.schip s.fetchWord = .error e) :
    stepInstruction s = .next { s.advance with result := .unknownInstruction s.fetchWord s.pc } := by
  unfold stepInstruction
  rw [if_neg (by omega), hd]
  rfl

/-- A `step()` that answers a next state: a fetch fault, an unknown word, or a decoded instruction executed. -/
theorem stepInstruction_cases {s t : State} (h : stepInstruction s = .next t) :
    (0x0FFE < s.pc.toNat ∧ t = { s with result := .memoryOutOfRange (max s.pc.toNat memorySize) }) ∨
    (s.pc.toNat ≤ 0x0FFE ∧ (∃ e, decode s.config.schip s.fetchWord = .error e) ∧
      t = { s.advance with result := .unknownInstruction s.fetchWord s.pc }) ∨
    (s.pc.toNat ≤ 0x0FFE ∧ ∃ i, decode s.config.schip s.fetchWord = .ok i ∧ exec i s.advance = .next t) := by
  by_cases hp : 0x0FFE < s.pc.toNat
  · rw [stepInstruction_outside hp] at h
    exact .inl ⟨hp, (Host.Outcome.next.inj h).symm⟩
  · have hp' : s.pc.toNat ≤ 0x0FFE := by omega
    cases hd : decode s.config.schip s.fetchWord with
    | ok i => exact .inr (.inr ⟨hp', i, rfl, by rwa [stepInstruction_decoded hp' hd] at h⟩)
    | error e =>
      rw [stepInstruction_unknown hp' hd] at h
      exact .inr (.inl ⟨hp', ⟨e, rfl⟩, (Host.Outcome.next.inj h).symm⟩)

/-- A move that answers a next state: the driver's `step()`, or the operation at the head of the schedule. -/
theorem step_cases {s t : State} (h : step s = .next t) :
    (s.schedule = [] ∧ stepInstruction s = .next t) ∨
    (∃ op rest, s.schedule = op :: rest ∧ operate op { s with schedule := rest } = .next t) := by
  cases hs : s.schedule with
  | nil => exact .inl ⟨rfl, by rwa [step_nothing_scheduled hs] at h⟩
  | cons op rest => exact .inr ⟨op, rest, rfl, by rwa [step_scheduled hs] at h⟩

end Sys2Proof.Machine
end

