-- ==== Sys2Proof/Tests/Slice0.lean ====
section
/-!
SUPPORT. Tests. Expected values are those of spec/95_test_vectors.md (the vector's id stands in the comment) or of the
rule named; words are written out from the encodings of spec/30_encoding.md R97 and R98.
-/
namespace Sys2Proof.Tests

open Sys2Proof.Machine

/-! ### Helpers -/

/-- START of the test vectors: the reset state with one word where the first step fetches it. -/
def start (w : Nat) : State := State.reset.withFetchWord 16 w

/-- The state one move leaves; where the machine stops, a state no test expects. -/
def moved (s : State) : State :=
  match step s with
  | .next t => t
  | .fault _ => { s with pc := 0xDEAD }
  | .refused _ => { s with pc := 0xBEEF }

/-- The state one host operation leaves. -/
def operated (op : Operation) (s : State) : State := moved { s with schedule := [op] }

/-- V registers given by number. -/
def withV (s : State) (l : List (Reg × Byte)) : State := l.foldl (fun s p => s.setV p.1 p.2) s

/-- The cells of `b` at linear positions 64 * k to 64 * k + 63: row k in standard mode, in extended mode the left half of
row k / 2 for even k, else the right half. -/
def withRow (g : Video) (k : Nat) (b : BitVec 64) : Video :=
  g.set (k / 2) (g.getD (k / 2) 0 ||| b.setWidth 128 <<< (64 * (k % 2)))

/-- Every cell 0 but for two such rows. -/
def rows (k k' : Nat) (row row' : BitVec 64) : Video := withRow (withRow (Video.dark true) k row) k' row'

/-- The parameters of a machine without the extension, the default the spec suggests (D3). -/
def baseConfig : Config := { defaultConfig with schip := false }

/-- START of the test vectors on a machine without the extension. -/
def startBase (w : Nat) : State := (State.resetWith baseConfig).withFetchWord 16 w

/-! ### Well-formedness, one ill-formed term for each check (R98) -/

theorem test_wellFormed_store_r8 : (Instr.ldRVx 8).wellFormed = false ∧ (Instr.ldRVx 7).wellFormed = true := by decide
theorem test_wellFormed_load_r8 : (Instr.ldVxR 8).wellFormed = false ∧ (Instr.ldVxR 7).wellFormed = true := by decide

/-! ### Decoding: a word of every row, its bits from R97 and R98 -/

theorem test_decode_family0 : decode false 0b0000000011100000 = .ok .cls ∧ decode false 0b0000000011101110 = .ok .ret := by
  decide
theorem test_decode_jumps : decode false 0b0001001000110100 = .ok (.jpNnn 0x234) ∧
    decode false 0b0010101111001101 = .ok (.callNnn 0xBCD) ∧ decode false 0b1011001011111110 = .ok (.jpV0Nnn 0x2FE) := by
  decide
theorem test_decode_skips : decode false 0b0011001000010000 = .ok (.seVxKk 2 0x10) ∧
    decode false 0b0100111110000001 = .ok (.sneVxKk 15 0x81) ∧ decode false 0b0101000100100000 = .ok (.seVxVy 1 2) ∧
    decode false 0b1001110001110000 = .ok (.sneVxVy 12 7) := by decide
theorem test_decode_constants : decode false 0b0110101000000101 = .ok (.ldVxKk 10 0x05) ∧
    decode false 0b0111000111111110 = .ok (.addVxKk 1 0xFE) ∧ decode false 0b1100001100001111 = .ok (.rndVxKk 3 0x0F) := by
  decide
theorem test_decode_family8_low : decode false 0b1000000100100000 = .ok (.ldVxVy 1 2) ∧
    decode false 0b1000000100100001 = .ok (.orVxVy 1 2) ∧ decode false 0b1000000100100010 = .ok (.andVxVy 1 2) ∧
    decode false 0b1000000100100011 = .ok (.xorVxVy 1 2) ∧ decode false 0b1000001101000100 = .ok (.addVxVy 3 4) := by
  decide
theorem test_decode_family8_high : decode false 0b1000000100100101 = .ok (.subVxVy 1 2) ∧
    decode false 0b1000000100100110 = .ok (.shrVx 1 2) ∧ decode false 0b1000000100100111 = .ok (.subnVxVy 1 2) ∧
    decode false 0b1000111110101110 = .ok (.shlVx 15 10) := by decide
theorem test_decode_index : decode false 0b1010001100000000 = .ok (.ldINnn 0x300) ∧
    decode false 0b1101101010110101 = .ok (.drwVxVyN 10 11 5) := by decide
theorem test_decode_keys : decode false 0b1110000110011110 = .ok (.skpVx 1) ∧
    decode false 0b1110101010100001 = .ok (.sknpVx 10) ∧ decode false 0b1111010100001010 = .ok (.ldVxK 5) := by decide
theorem test_decode_timers : decode false 0b1111001100000111 = .ok (.ldVxDt 3) ∧
    decode false 0b1111001100010101 = .ok (.ldDtVx 3) ∧ decode false 0b1111001100011000 = .ok (.ldStVx 3) := by decide
theorem test_decode_memory : decode false 0b1111000100011110 = .ok (.addIVx 1) ∧
    decode false 0b1111001000101001 = .ok (.ldFVx 2) ∧ decode false 0b1111000100110011 = .ok (.ldBVx 1) ∧
    decode false 0b1111001001010101 = .ok (.ldMemVx 2) ∧ decode false 0b1111001001100101 = .ok (.ldVxMem 2) := by decide
theorem test_decode_extension0 : decode true 0b0000000011000001 = .ok (.scdN 1) ∧
    decode true 0b0000000011111011 = .ok .scr ∧ decode true 0b0000000011111100 = .ok .scl ∧
    decode true 0b0000000011111101 = .ok .exit ∧ decode true 0b0000000011111110 = .ok .low ∧
    decode true 0b0000000011111111 = .ok .high := by decide
theorem test_decode_extensionF : decode true 0b1111001000110000 = .ok (.ldHfVx 2) ∧
    decode true 0b1111000101110101 = .ok (.ldRVx 1) ∧ decode true 0b1111011110000101 = .ok (.ldVxR 7) := by decide

/-- FD-2 to FD-8: near misses of the patterns are unknown (D8). -/
theorem test_decode_strict :
    [0x0000#16, 0x01E0, 0x0123, 0x5121, 0x9123, 0x8128, 0x812F, 0xE19F].map (fun w => decode true w ==
      .error (.unknownInstruction w)) = List.replicate 8 true := by decide
/-- FD-9 to FD-11, SC-11, SC-12: the extension's words without it, and X above 7. -/
theorem test_decode_extension_off :
    [0x00FF#16, 0xF030, 0x00C1].map (fun w => decode false w == .error (.unknownInstruction w)) =
      List.replicate 3 true ∧
    [0xF875#16, 0xFF85].map (fun w => decode true w == .error (.unknownInstruction w)) = List.replicate 2 true := by
  decide
/-- Fewer than two bytes are no instruction (R90). -/
theorem test_decode_truncated : decodeBytes true [0x6A] = .error .truncated := by decide
/-- R112's example: ADD V3, V4 is 0x8344. -/
theorem test_encode_add : encode (.addVxVy 3 4) = 0x8344 ∧ encodeBytes (.addVxVy 3 4) = [0x83, 0x44] := by decide
/-- The host's question on a row of the table. -/
theorem test_decodeTableWord : decodeTableWord 16 0xD012 = some (.drwVxVyN 0 1 2) ∧ decodeTableWord 16 0xF875 = none := by
  decide

/-! ### Reset, fetch and the scheduled operations -/

/-- The default font of R343, read back at 0x000 to 0x04F. -/
theorem test_reset_font_low : State.reset.bytesAt 0x000 40 =
    [0xF0, 0x90, 0x90, 0x90, 0xF0, 0x20, 0x60, 0x20, 0x20, 0x70, 0xF0, 0x10, 0xF0, 0x80, 0xF0, 0xF0, 0x10, 0xF0, 0x10,
     0xF0, 0x90, 0x90, 0xF0, 0x10, 0x10, 0xF0, 0x80, 0xF0, 0x10, 0xF0, 0xF0, 0x80, 0xF0, 0x90, 0xF0, 0xF0, 0x10, 0x20,
     0x40, 0x40] := by decide
theorem test_reset_font_high : State.reset.bytesAt 0x028 42 =
    [0xF0, 0x90, 0xF0, 0x90, 0xF0, 0xF0, 0x90, 0xF0, 0x10, 0xF0, 0xF0, 0x90, 0xF0, 0x90, 0x90, 0xE0, 0x90, 0xE0, 0x90,
     0xE0, 0xF0, 0x80, 0x80, 0x80, 0xF0, 0xE0, 0x90, 0x90, 0x90, 0xE0, 0xF0, 0x80, 0xF0, 0x80, 0xF0, 0xF0, 0x80, 0xF0,
     0x80, 0x80, 0x00, 0x00] := by decide
/-- R50: the entry point. -/
theorem test_reset_pc : State.reset.pc = 0x200 ∧ State.reset.sp = 0 ∧ State.reset.playBeep = false := by decide
/-- FD-1: nothing loaded. -/
theorem test_fetch_zero : moved State.reset =
    { State.reset with pc := 0x202, result := .unknownInstruction 0x0000 0x200 } := by decide
/-- FD-12. -/
theorem test_fetch_outside : moved { State.reset with pc := 0x0FFF } =
    { State.reset with pc := 0x0FFF, result := .memoryOutOfRange 0x1000 } := by decide
/-- FD-13: the last word, and the fetch after it. -/
theorem test_fetch_last_word :
    let t := moved ({ State.reset with pc := 0x0FFE }.withFetchWord 16 0x6A05)
    t.getV 10 = 0x05 ∧ t.pc = 0x1000 ∧ (moved t).result = .memoryOutOfRange 0x1000 ∧ (moved t).pc = 0x1000 := by decide
/-- FD-14: an odd address. -/
theorem test_fetch_odd : (moved ({ State.reset with pc := 0x0201 }.withFetchWord 16 0x6A05)).getV 10 = 0x05 := by decide
/-- TM-4 to TM-7. -/
theorem test_tick :
    let t := operated .tick { State.reset with delayTimer := 255, soundTimer := 2 }
    t.delayTimer = 254 ∧ t.soundTimer = 1 ∧ (operated .tick t).playBeep = false ∧
      (operated .tick State.reset).delayTimer = 0 := by decide
/-- HO-2 and HO-6. -/
theorem test_load_and_reset :
    let t := operated (.loadProgram [0x6A, 0x05]) State.reset
    t.bytesAt 0x200 3 = [0x6A, 0x05, 0x00] ∧ t.pc = 0x200 ∧ (moved t).getV 10 = 5 ∧
      operated .reset (moved t) = State.reset := by decide +kernel
/-- S-F, HO-4: 3584 bytes are accepted, 3585 refused. -/
theorem test_load_bound : operated (.loadProgram (List.replicate 3585 0xAB)) State.reset =
      { State.reset with result := .programTooLarge 3585 } := by decide +kernel
/-- HO-7, R286, HO-9. -/
theorem test_host_writes :
    (operated .clearRefresh { State.reset with refreshScreen := true }).refreshScreen = false ∧
      (operated (.writeKeys ((Vector.replicate 16 false).set 7 true)) State.reset).firstKeyDown = some 7 ∧
      operated (.importState State.reset.exported) State.reset = State.reset := by decide
/-- R290: an ill-typed snapshot is no move of the host. -/
theorem test_import_illTyped :
    operate (.importState { Snapshot.reset defaultConfig with sp := 17 }) State.reset = .refused .importIllTyped := by rfl

/-! ### Control flow -/

/-- R140's example. -/
theorem test_jp : (moved (start 0x1234)).pc = 0x234 := by decide
/-- CF-3: a self-jump is a fixed point. -/
theorem test_jp_self : moved (start 0x1200) = start 0x1200 := by decide
/-- CF-4: the sixteenth entry. -/
theorem test_call_last_entry :
    let t := moved { start 0x2300 with sp := 15 }
    t.stack[15] = 0x0202 ∧ t.sp = 16 ∧ t.pc = 0x300 := by decide
/-- CF-5. -/
theorem test_call_overflow : moved { start 0x2300 with sp := 16 } =
    { start 0x2300 with sp := 16, pc := 0x202, result := .stackOverflow } := by decide
/-- S-D: the entry is not erased. -/
theorem test_ret :
    let t := moved { start 0x00EE with sp := 1, stack := (Vector.replicate 16 0).set 0 0x210 }
    t.pc = 0x210 ∧ t.sp = 0 ∧ t.stack[0] = 0x210 := by decide
/-- CF-6. -/
theorem test_ret_underflow : moved (start 0x00EE) =
    { start 0x00EE with pc := 0x202, result := .stackUnderflow } := by decide
/-- CF-8, CF-9. -/
theorem test_se_constant : (moved (withV (start 0x3210) [(2, 0x10)])).pc = 0x204 ∧
    (moved (withV (start 0x3211) [(2, 0x10)])).pc = 0x202 := by decide
/-- CF-10, CF-11. -/
theorem test_sne_constant : (moved (withV (start 0x4210) [(2, 0x10)])).pc = 0x202 ∧
    (moved (withV (start 0x4211) [(2, 0x10)])).pc = 0x204 := by decide
/-- CF-13, CF-14. -/
theorem test_se_register : (moved (withV (start 0x5120) [(1, 7), (2, 7)])).pc = 0x204 ∧
    (moved (withV (start 0x5120) [(1, 7), (2, 8)])).pc = 0x202 := by decide
/-- CF-15, CF-16. -/
theorem test_sne_register : (moved (withV (start 0x9120) [(1, 7), (2, 7)])).pc = 0x202 ∧
    (moved (withV (start 0x9120) [(1, 7), (2, 8)])).pc = 0x204 := by decide
/-- CF-20: no 12-bit mask. -/
theorem test_jp_v0 :
    let t := moved (withV (start 0xBFFF) [(0, 0xFF)])
    t.pc = 0x10FE ∧ (moved t).result = .memoryOutOfRange 0x10FE := by decide

/-! ### Registers and ALU -/

/-- S-A. -/
theorem test_ld_constant : let t := moved (start 0x6A05); t.getV 10 = 0x05 ∧ t.pc = 0x202 := by decide
/-- AL-1: the sum wraps and VF stays. -/
theorem test_add_constant : let t := moved (withV (start 0x7102) [(1, 0xFF), (15, 0x55)])
    t.getV 1 = 0x01 ∧ t.getV 15 = 0x55 := by decide
/-- AL-3. -/
theorem test_ld_register : let t := moved (withV (start 0x8120) [(1, 0xF0), (2, 0x3C), (15, 0x77)])
    t.getV 1 = 0x3C ∧ t.getV 15 = 0x77 := by decide
/-- AL-4. -/
theorem test_or : let t := moved (withV (start 0x8121) [(1, 0xF0), (2, 0x3C), (15, 0x77)])
    t.getV 1 = 0xFC ∧ t.getV 15 = 0x77 := by decide
/-- AL-5. -/
theorem test_and : let t := moved (withV (start 0x8122) [(1, 0xF0), (2, 0x3C), (15, 0x77)])
    t.getV 1 = 0x30 ∧ t.getV 15 = 0x77 := by decide
/-- AL-6. -/
theorem test_xor : let t := moved (withV (start 0x8123) [(1, 0xF0), (2, 0x3C), (15, 0x77)])
    t.getV 1 = 0xCC ∧ t.getV 15 = 0x77 := by decide
/-- S-B. -/
theorem test_add : let t := moved (withV (start 0x8344) [(3, 0xFF), (4, 0x01)])
    t.getV 3 = 0x00 ∧ t.getV 15 = 1 ∧ t.getV 4 = 0x01 := by decide
/-- AL-10: the flag overwrites the sum when X = 15. -/
theorem test_add_to_vf : (moved (withV (start 0x8F14) [(15, 0xF0), (1, 0x20)])).getV 15 = 0x01 := by decide
/-- AL-12: equal operands need no borrow. -/
theorem test_sub_equal : let t := moved (withV (start 0x8125) [(1, 0x33), (2, 0x33)])
    t.getV 1 = 0x00 ∧ t.getV 15 = 1 := by decide
/-- AL-14. -/
theorem test_sub_borrow : let t := moved (withV (start 0x8125) [(1, 0x10), (2, 0x20)])
    t.getV 1 = 0xF0 ∧ t.getV 15 = 0 := by decide
/-- AL-19: VY is ignored. -/
theorem test_shr : let t := moved (withV (start 0x8126) [(1, 0x05), (2, 0xEE)])
    t.getV 1 = 0x02 ∧ t.getV 15 = 1 ∧ t.getV 2 = 0xEE := by decide
/-- AL-21. -/
theorem test_shr_vf : (moved (withV (start 0x8F06) [(15, 0x02)])).getV 15 = 0x00 := by decide
/-- AL-17. -/
theorem test_subn : let t := moved (withV (start 0x8127) [(1, 0x00), (2, 0x01)])
    t.getV 1 = 0x01 ∧ t.getV 15 = 1 := by decide
/-- AL-18. -/
theorem test_subn_borrow : let t := moved (withV (start 0x8127) [(1, 0x20), (2, 0x10)])
    t.getV 1 = 0xF0 ∧ t.getV 15 = 0 := by decide
/-- AL-22. -/
theorem test_shl : let t := moved (withV (start 0x810E) [(1, 0x81)])
    t.getV 1 = 0x02 ∧ t.getV 15 = 1 := by decide
/-- AL-24. -/
theorem test_shl_vf : (moved (withV (start 0x8F0E) [(15, 0x40)])).getV 15 = 0x00 := by decide
/-- AL-28: the draw itself under the mask 0xFF; no value of it can be expected. -/
theorem test_rnd : let t := moved (start 0xC3FF)
    t.getV 3 = Config.freeByte 0 &&& 0xFF ∧ t.draws = 1 ∧ t.pc = 0x202 := by
  exact ⟨rfl, rfl, rfl⟩

/-! ### The index register and memory -/

/-- IM-1. -/
theorem test_ld_i : (moved (start 0xAFFF)).i = 0x0FFF := by decide
/-- IM-5: the flag tests the stored value. -/
theorem test_add_i_wraps : let t := moved (withV { start 0xF11E with i := 0xFFFF } [(1, 0x02)])
    t.i = 0x0001 ∧ t.getV 15 = 0 := by decide
/-- IM-6. -/
theorem test_add_i_above : let t := moved { start 0xF11E with i := 0x1001 }
    t.i = 0x1001 ∧ t.getV 15 = 1 := by decide
/-- IM-8, IM-9. -/
theorem test_ld_f : (moved (withV (start 0xF229) [(2, 0x0A)])).i = 0x0032 ∧
    (moved (withV (start 0xF229) [(2, 0xFF)])).i = 0x04FB := by decide
/-- IM-13. -/
theorem test_bcd : let t := moved (withV { start 0xF133 with i := 0x0FFD } [(1, 156)])
    t.bytesAt 0xFFD 3 = [1, 5, 6] ∧ t.i = 0x0FFD ∧ t.MemoryWf := by decide
/-- IM-14. -/
theorem test_bcd_outside : let s := withV { start 0xF133 with i := 0x0FFE } [(1, 156)]
    moved s = { s with pc := 0x202, result := .memoryOutOfRange 0x1000 } := by decide
/-- IM-16. -/
theorem test_store_block : let t := moved (withV { start 0xF255 with i := 0x400 } [(0, 0x11), (1, 0x22), (2, 0x33)])
    t.bytesAt 0x400 4 = [0x11, 0x22, 0x33, 0x00] ∧ t.i = 0x0403 := by decide
/-- IM-22. -/
theorem test_store_outside : let s := { start 0xF055 with i := 0x1234 }
    moved s = { s with pc := 0x202, result := .memoryOutOfRange 0x1234 } := by decide
/-- IM-18: the font's first glyph. -/
theorem test_load_block : let t := moved (withV (start 0xF465) [(5, 0x99)])
    (blockOf t.v 6) = [0xF0, 0x90, 0x90, 0x90, 0xF0, 0x99] ∧ t.i = 0x0005 := by decide
/-- IM-21. -/
theorem test_load_block_end :
    let t := moved ({ start 0xFF65 with i := 0x0FF0 }.storeBytes 0xFFF [0x5A])
    t.getV 14 = 0x00 ∧ t.getV 15 = 0x5A ∧ t.i = 0x1000 := by decide

/-! ### Timers and keys -/

/-- TM-1. -/
theorem test_ld_vx_dt : let t := moved { start 0xF307 with delayTimer := 0x2A }
    t.getV 3 = 0x2A ∧ t.delayTimer = 0x2A := by decide
/-- TM-2. -/
theorem test_ld_dt : let t := moved (withV (start 0xF315) [(3, 0x3C)])
    t.delayTimer = 0x3C ∧ t.soundTimer = 0 := by decide
/-- TM-3. -/
theorem test_ld_st : let t := moved (withV (start 0xF318) [(3, 0x3C)])
    t.soundTimer = 0x3C ∧ t.delayTimer = 0 ∧ t.playBeep = true := by decide
/-- KP-1, KP-3. -/
theorem test_skp : (moved (withV { start 0xE19E with key := (Vector.replicate 16 false).set 10 true } [(1, 0x0A)])).pc =
    0x204 ∧ (moved (withV (start 0xE19E) [(1, 0x0A)])).pc = 0x202 := by decide
/-- KP-5. -/
theorem test_skp_outside : let s := withV (start 0xE19E) [(1, 0x10)]
    moved s = { s with pc := 0x202, result := .keyIndexOutOfRange 0x10 } := by decide
/-- KP-2, KP-4. -/
theorem test_sknp : (moved (withV { start 0xE1A1 with key := (Vector.replicate 16 false).set 10 true } [(1, 0x0A)])).pc =
    0x202 ∧ (moved (withV (start 0xE1A1) [(1, 0x0A)])).pc = 0x204 := by decide
/-- KP-6. -/
theorem test_sknp_outside : let s := withV (start 0xE1A1) [(1, 0xFF)]
    moved s = { s with pc := 0x202, result := .keyIndexOutOfRange 0xFF } := by decide
/-- S-E: no key, the state is as before. -/
theorem test_wait_key_none : moved (start 0xF50A) = start 0xF50A := by decide
/-- KP-8: the lowest key. -/
theorem test_wait_key : let t := moved { start 0xF50A with key := ((Vector.replicate 16 false).set 3 true).set 7 true }
    t.getV 5 = 0x03 ∧ t.pc = 0x202 := by decide

/-! ### The display -/

/-- DP-1. -/
theorem test_cls : let t := moved { start 0x00E0 with videoMemory := rows 1 31 2 0x8000000000000000 }
    t.videoMemory = Video.dark true ∧ t.refreshScreen = true := by decide
/-- S-C: row 0 has pixels 3 and 6, row 1 has pixels 2, 3 and 5. -/
theorem test_draw : let t := moved ({ start 0xD012 with i := 0x300 }.storeBytes 0x300 [0x12, 0x34])
    t.videoMemory = rows 0 1 0x48 0x2C ∧ t.getV 15 = 0 ∧ t.refreshScreen = true := by decide
/-- DP-4: the wrap on both axes. -/
theorem test_draw_wraps :
    let t := moved (withV ({ start 0xD012 with i := 0x300 }.storeBytes 0x300 [0xFF, 0xFF]) [(0, 62), (1, 31)])
    t.videoMemory = rows 0 31 0xC00000000000003F 0xC00000000000003F ∧ t.getV 15 = 0 := by decide

/-! ### The extension -/

/-- SC-2: the bottom row is lost. -/
theorem test_scroll_down : let t := moved { start 0x00C1 with videoMemory := rows 31 0 0x20 0x20 }
    t.videoMemory = rows 1 1 0x20 0x20 ∧ t.refreshScreen = true := by decide
/-- SC-4, the pixels (0,0) and (60,1): one moves, one is lost. -/
theorem test_scroll_right : (moved { start 0x00FB with videoMemory := rows 0 1 1 0x1000000000000000 }).videoMemory =
    rows 0 1 0x10 0 := by decide
/-- SC-5, the pixels (4,0) and (3,1). -/
theorem test_scroll_left : (moved { start 0x00FC with videoMemory := rows 0 1 0x10 0x08 }).videoMemory =
    rows 0 1 0x01 0 := by decide
/-- SC-6. -/
theorem test_exit : moved (start 0x00FD) = { start 0x00FD with pc := 0x202, result := .exitRequested } := by decide
/-- SC-7. -/
theorem test_high : let t := moved { start 0x00FF with videoMemory := rows 1 1 2 2 }
    t.extendedGraphicsMode = true ∧ t.videoMemory = Video.dark true ∧ t.width = 128 ∧ t.height = 64 := by decide
/-- SC-8. -/
theorem test_low : let t := moved { start 0x00FE with videoMemory := rows 1 1 2 2 }
    t.extendedGraphicsMode = false ∧ t.videoMemory = Video.dark true ∧ t.refreshScreen = true := by decide
/-- SC-9. -/
theorem test_store_r :
    let t := moved (withV { start 0xF175 with r := ((Vector.replicate 8 0).set 2 9).set 7 8 } [(0, 1), (1, 2), (2, 3)])
    t.r = #v[1, 2, 9, 0, 0, 0, 0, 8] := by decide
/-- SC-10. -/
theorem test_load_r :
    let t := moved (withV { start 0xF185 with r := #v[1, 2, 3, 0, 0, 0, 0, 0] } [(2, 0x77)])
    t.getV 0 = 1 ∧ t.getV 1 = 2 ∧ t.getV 2 = 0x77 := by decide
/-- SC-13, SC-14. -/
theorem test_ld_hf : (moved (withV (start 0xF230) [(2, 3)])).i = 0x006E ∧
    (moved (withV (start 0xF230) [(2, 0xFF)])).i = 0x0A46 := by decide
/-- FD-9: with `SCHIP` false the word 0x00FF is unknown. -/
theorem test_extension_off : (moved (startBase 0x00FF)).result = .unknownInstruction 0x00FF 0x200 := by decide
/-- DP-12: the wrap in extended mode, columns 126, 127, 0 and 1 of rows 63 and 0. -/
theorem test_draw_extended :
    let t := moved (withV ({ start 0xD012 with i := 0x300, extendedGraphicsMode := true }.storeBytes 0x300 [0xF0, 0xF0])
      [(0, 126), (1, 63)])
    t.videoMemory = withRow (withRow (rows 0 1 3 0xC000000000000000) 126 3) 127 0xC000000000000000 := by decide
/-- R252 in extended mode: pixel (70, 0) moves to (70, 1). -/
theorem test_scroll_down_extended :
    (moved { start 0x00C1 with extendedGraphicsMode := true, videoMemory := rows 1 1 0x40 0x40 }).videoMemory =
      rows 3 3 0x40 0x40 := by decide
/-- R254 in extended mode: pixel (62, 0) moves to (66, 0), pixel (124, 1) is lost. -/
theorem test_scroll_right_extended :
    (moved { start 0x00FB with extendedGraphicsMode := true,
                               videoMemory := rows 0 3 0x4000000000000000 0x1000000000000000 }).videoMemory =
      rows 1 1 4 4 := by decide
/-- R256 in extended mode: pixel (66, 0) moves to (62, 0), pixel (3, 1) is lost. -/
theorem test_scroll_left_extended :
    (moved { start 0x00FC with extendedGraphicsMode := true, videoMemory := rows 1 2 4 8 }).videoMemory =
      rows 0 0 0x4000000000000000 0x4000000000000000 := by decide
/-- R46: how many cells the machine stores, and the linear position of a pixel in both modes. -/
theorem test_cells : (State.resetWith baseConfig).videoMemory.size = 2048 ∧ State.reset.videoMemory.size = 8192 ∧
    linearPosition 64 5 30 = 1925 ∧ linearPosition 128 5 30 = 3845 ∧
    ({ State.reset with videoMemory := rows 30 0 0x20 0 }).videoMemory.cell 1925 = true ∧
    ({ State.reset with videoMemory := rows 30 0 0x20 0 }).pix 5 30 = true := by decide

/-! ### Witnesses: states and operands that meet the hypotheses of an obligation, at the ends of each clause -/

/-- The word at `pc` as the obligations write it. -/
def wordAt (s : State) : Word := s.byteAt s.pc.toNat ++ s.byteAt (s.pc.toNat + 1)

theorem test_witness_DecodeOfEncode :
    (Instr.ldRVx 7).wellFormed = true ∧ ((Instr.ldRVx 7).isExtension = true → true = true) ∧
      (Instr.shlVx 15 15).wellFormed = true ∧ ((Instr.shlVx 15 15).isExtension = true → false = true) := by decide
theorem test_witness_EncodeOfDecode : decode true 0xF775 = .ok (.ldRVx 7) ∧ decode false 0x800E = .ok (.shlVx 0 0) := by
  decide
/-- Words next to legal ones, in each family of R100. -/
theorem test_witness_BaseIllegalWords :
    [0x00DF#16, 0x00E1, 0x00ED, 0x00EF, 0x0FFF, 0x5001, 0x500F, 0x8008, 0x800D, 0x800F, 0x9001, 0x900F, 0xE09D, 0xE0A2,
      0xF000, 0xF006, 0xF0FF].map (fun w => decode false w == .error (.unknownInstruction w)) = List.replicate 17 true ∧
    [0x00E0#16, 0x00EE, 0x1000, 0x5FF0, 0x8FF7, 0x8FFE, 0x9FF0, 0xDFFF, 0xEF9E, 0xEFA1, 0xFF07, 0xFF65].map
      (fun w => decode false w == .error (.unknownInstruction w)) = List.replicate 12 false := by decide
/-- The ends of the extension's ranges, and the words next to them. -/
theorem test_witness_ExtensionWords :
    [0x00C0#16, 0x00CF, 0x00FB, 0x00FF, 0xFF30, 0xF775, 0xF785].map (fun w =>
      (decode true w == .error (.unknownInstruction w), decode false w == .error (.unknownInstruction w))) =
        List.replicate 7 (false, true) ∧
    [0x00BF#16, 0x00D0, 0x00FA, 0x0100, 0xF875, 0xF885].map (fun w =>
      (decode true w == .error (.unknownInstruction w), decode false w == .error (.unknownInstruction w))) =
        List.replicate 6 (true, true) := by decide
theorem test_witness_StepRunsDecodedInstruction :
    let s := { State.reset with pc := 0x0FFE }.withFetchWord 16 0x6A05
    s.StepIsNext ∧ s.pc.toNat ≤ 0x0FFE ∧ decode s.config.schip (wordAt s) = .ok (.ldVxKk 10 5) := by decide
/-- The same with a `step()` that heads the schedule, a tick after it. -/
theorem test_witness_step_scheduled :
    let s := { start 0x6A05 with schedule := [.step, .tick] }
    s.StepIsNext ∧ s.dequeued.schedule = [.tick] ∧ s.pc.toNat ≤ 0x0FFE ∧
      decode s.config.schip (wordAt s) = .ok (.ldVxKk 10 5) := by decide
/-- A scheduled `step()` runs the instruction and leaves the rest of the schedule. -/
theorem test_step_scheduled :
    let t := moved { start 0x6A05 with schedule := [.step, .tick] }
    t.getV 10 = 5 ∧ t.pc = 0x202 ∧ t.schedule = [.tick] := by decide
theorem test_witness_StepPerformsScheduledOperation :
    { State.reset with schedule := [.tick, .step] }.schedule = Operation.tick :: [.step] := rfl
theorem test_witness_StepOnUnknownInstruction :
    let s := { State.reset with pc := 0x0FFE }
    s.StepIsNext ∧ s.pc.toNat ≤ 0x0FFE ∧
      decode s.config.schip (wordAt s) = .error (.unknownInstruction 0x0000) := by decide
theorem test_witness_FetchOutOfRangeIsFixedPoint :
    State.reset.StepIsNext ∧ 0x0FFE < ({ State.reset with pc := 0x0FFF }).pc.toNat ∧
      0x0FFE < ({ State.reset with pc := 0xFFFF }).pc.toNat := by decide
theorem test_witness_SelfJumpIsFixedPoint :
    let s := { State.reset with pc := 0x0FFE }.withFetchWord 16 0x1FFE
    s.StepIsNext ∧ s.pc.toNat ≤ 0x0FFE ∧ (wordAt s).toNat = 0x1000 + s.pc.toNat := by decide
/-- FX15 and FX18 change a timer, an instruction of another family none. -/
theorem test_witness_StepLeavesInputsAndTimers :
    (∃ t, operate .step (withV (start 0xF315) [(3, 9)]) = .next t ∧ t.delayTimer = 9) ∧
      (start 0xF318).StepIsNext ∧ (∃ t, step (withV (start 0xF318) [(3, 9)]) = .next t ∧ t.soundTimer = 9) ∧
      (∃ t, step { start 0x6A05 with refreshScreen := true } = .next t ∧ t.refreshScreen = true) :=
  ⟨⟨_, rfl, rfl⟩, .inl rfl, ⟨_, rfl, rfl⟩, ⟨_, rfl, rfl⟩⟩
theorem test_witness_ParametersAreFixed :
    ∃ t, step { State.reset with schedule := [.tick, .step] } = .next t ∧ t.schedule = [.step] := ⟨_, rfl, rfl⟩
theorem test_witness_StepKeepsWellTyped : State.reset.WellTyped ∧ ∃ t, step (start 0x6A05) = .next t :=
  ⟨by decide, _, rfl⟩
/-- A state in the middle of a run, one frame on the stack. -/
theorem test_witness_StepKeepsBounds :
    let s := { start 0x00EE with sp := 1, stack := (Vector.replicate 16 0).set 0 0x1000 }
    s.WellTyped ∧ s.Bounded ∧ s.NoImport ∧ ∃ t, step s = .next t := ⟨by decide, by decide, by decide, _, rfl⟩
theorem test_witness_WellTypedMachineNeverStops :
    ({ State.reset with schedule := [.importState State.reset.exported] }).WellTyped ∧
      State.reset.exported.wellTyped State.reset.config = true := by decide
theorem test_witness_ExecuteFaultsArePrecise :
    ∃ t, exec .ret State.reset = .next t ∧ t.result ≠ .ok := ⟨_, rfl, by decide⟩
theorem test_witness_StepFaultsArePrecise :
    (∃ t, operate .step (start 0x00EE) = .next t ∧ t.result ≠ .ok ∧ (start 0x00EE).pc.toNat ≤ 0x0FFE) ∧
      ({ State.reset with pc := 0x0FFF }).StepIsNext ∧
      ∃ t, step { State.reset with pc := 0x0FFF } = .next t ∧ t.result ≠ .ok :=
  ⟨⟨_, rfl, by decide, by decide⟩, .inl rfl, ⟨_, rfl, by decide⟩⟩
/-- Each kind at the first value that raises it. -/
theorem test_witness_FaultKindsAndConditions :
    (∃ t, exec (.callNnn 0) { State.reset with sp := 16 } = .next t ∧ t.result = .stackOverflow) ∧
    (∃ t, exec (.ldBVx 0) { State.reset with i := 0x0FFE } = .next t ∧ t.result = .memoryOutOfRange 0x1000) ∧
    (∃ t, exec (.ldVxMem 1) { State.reset with i := 0x0FFF } = .next t ∧ t.result = .memoryOutOfRange 0x1000) ∧
    (∃ t, exec (.drwVxVyN 0 0 2) { State.reset with i := 0x0FFF } = .next t ∧ t.result = .memoryOutOfRange 0x1000) ∧
    (∃ t, exec (.sknpVx 0) (withV State.reset [(0, 16)]) = .next t ∧ t.result = .keyIndexOutOfRange 16) :=
  ⟨⟨_, rfl, rfl⟩, ⟨_, rfl, rfl⟩, ⟨_, rfl, rfl⟩, ⟨_, rfl, rfl⟩, ⟨_, rfl, rfl⟩⟩
theorem test_witness_FaultKinds_none :
    (∃ t, exec (.callNnn 0) { State.reset with sp := 15 } = .next t ∧ t.result = .ok) ∧
    (∃ t, exec (.ldVxMem 0) { State.reset with i := 0x0FFF } = .next t ∧ t.result = .ok) ∧
    (∃ t, exec (.drwVxVyN 0 0 0) { State.reset with i := 0xFFFF } = .next t ∧ t.result = .ok) ∧
    (∃ t, exec (.skpVx 0) (withV State.reset [(0, 15)]) = .next t ∧ t.result = .ok) :=
  ⟨⟨_, rfl, rfl⟩, ⟨_, rfl, rfl⟩, ⟨_, rfl, rfl⟩, ⟨_, rfl, rfl⟩⟩
theorem test_witness_OnlyIllegalStackPointerStops :
    exec .ret { State.reset with sp := 17 } = .fault .stackPointerIllegal ∧
      exec (.callNnn 0) { State.reset with sp := 17 } = .fault .stackPointerIllegal ∧
      ∃ t, exec .ret { State.reset with sp := 16 } = .next t := ⟨rfl, rfl, _, rfl⟩
theorem test_witness_FrameOfEveryInstruction :
    ∃ t, exec (.ldMemVx 15) { State.reset with i := 0x0FF0 } = .next t ∧ t.i = 0x1000 := ⟨_, rfl, rfl⟩
theorem test_witness_CallPushesReturnAddress :
    ({ State.reset with sp := 15 }).sp.toNat < 16 ∧ ({ State.reset with sp := 16 }).sp.toNat = 16 := by decide
theorem test_witness_ReturnPopsStack :
    ({ State.reset with sp := 16 }).sp.toNat = (15 : Fin 16).val + 1 ∧
      ({ State.reset with sp := 1 }).sp.toNat = (0 : Fin 16).val + 1 ∧ State.reset.sp.toNat = 0 := by decide
theorem test_witness_ReturnUndoesCall :
    ({ State.reset with sp := 15 }).sp.toNat < 16 ∧
      ∃ t, exec (.callNnn 0xFFF) { State.reset with sp := 15 } = .next t ∧ t.sp = 16 := ⟨by decide, _, rfl, rfl⟩
/-- The clause on VX asks for a register that is not VF. -/
theorem test_witness_AddSubtractShift : (14 : Reg) ≠ 15 ∧ (0 : Reg) ≠ 14 ∧
    (moved (withV (start 0x8EF5) [(14, 3), (15, 5)])).getV 14 = 0xFE ∧
    (moved (withV (start 0x8EFE) [(14, 0xC1)])).getV 14 = 0x82 := by decide
theorem test_witness_FlagsAreZeroOrOne : Instr.subVxVy 15 15 ∈ [Instr.addVxVy 15 15, .subVxVy 15 15] ∧
    ∃ t, exec (.subVxVy 15 15) State.reset = .next t ∧ t.result = .ok ∧ t.getV 15 = 1 := ⟨by decide, _, rfl, rfl, rfl⟩
theorem test_witness_BinaryCodedDecimal :
    ({ State.reset with i := 0x0FFD }).MemoryWf ∧ ({ State.reset with i := 0x0FFD }).i.toNat + 2 ≤ 0x0FFF ∧
      ({ State.reset with i := 0x0FFE }).i.toNat + 2 > 0x0FFF := by decide
/-- The two clauses of FX55 and of FX65 where they meet. -/
theorem test_witness_RegisterBlocks :
    ({ State.reset with i := 0x0FF0 }).MemoryWf ∧
      ({ State.reset with i := 0x0FF0 }).i.toNat + (15 : Reg).val ≤ 0x0FFF ∧
      ({ State.reset with i := 0x0FF1 }).i.toNat + (15 : Reg).val > 0x0FFF := by decide
theorem test_witness_LoadRestoresStoredBlock :
    let s := withV { State.reset with i := 0x0FFE } [(0, 7), (1, 8)]
    s.MemoryWf ∧ s.i.toNat + (1 : Reg).val ≤ 0x0FFF ∧ ∃ t, exec (.ldMemVx 1) s = .next t ∧
      ∃ u, exec (.ldVxMem 1) { t with i := s.i, v := Vector.replicate 16 0 } = .next u ∧ u.getV 1 = 8 :=
  ⟨by decide, by decide, _, rfl, _, rfl, rfl⟩
theorem test_witness_StoreIsSeenByNextFetch :
    let s := withV { State.reset with i := 0x0200 } [(0, 0x6A), (1, 0x05)]
    s.MemoryWf ∧ s.i.toNat + (1 : Reg).val ≤ 0x0FFF ∧ (1 : Reg).val = (0 : Reg).val + 1 ∧
      ∃ t, exec (.ldMemVx 1) s = .next t ∧ t.pc.toNat = s.i.toNat + (0 : Reg).val ∧ t.fetchWord = 0x6A05 :=
  ⟨by decide, by decide, by decide, _, rfl, rfl, rfl⟩
theorem test_witness_KeySkips :
    ((withV State.reset [(1, 15)]).getV 1).toNat = (15 : Fin 16).val ∧ ((withV State.reset [(1, 16)]).getV 1).toNat > 15 := by
  decide
theorem test_witness_KeyWaitTakesLowestKey :
    let keys := ((Vector.replicate 16 false).set 3 true).set 15 true
    keys[(3 : Fin 16).val] = true ∧ (∀ j : Fin 16, j.val < (3 : Fin 16).val → keys[j.val] = false) := by decide
theorem test_witness_KeyWaitWithoutKeyIsFixedPoint :
    let s := { State.reset with pc := 0x0FFE }.withFetchWord 16 0xF50A
    s.StepIsNext ∧ s.pc.toNat ≤ 0x0FFE ∧ decode s.config.schip (wordAt s) = .ok (.ldVxK 5) ∧
      (∀ k : Fin 16, s.key[k.val] = false) := by decide
/-- The last range DXYN may read, and N = 0 whatever `I` is. -/
theorem test_witness_DrawTogglesCoveredPixels :
    ((15 : Count).val = 0 ∨ ({ State.reset with i := 0x0FF1 }).i.toNat + (15 : Count).val - 1 ≤ 0x0FFF) ∧
      ((0 : Count).val = 0 ∨ ({ State.reset with i := 0xFFFF }).i.toNat + (0 : Count).val - 1 ≤ 0x0FFF) := by decide
theorem test_witness_DrawFaultAndZeroRows :
    0 < (15 : Count).val ∧ ({ State.reset with i := 0x0FF2 }).i.toNat + (15 : Count).val - 1 > 0x0FFF ∧
      (0 : Count).val = 0 := by decide
/-- The glyph of 0 drawn at (0, 0), also with VF as an operand. -/
theorem test_witness_DrawTwiceRestoresDisplay :
    (∃ t, exec (.drwVxVyN 0 1 5) State.reset = .next t ∧ t.result = .ok ∧ t.getV 0 = State.reset.getV 0 ∧
      t.getV 1 = State.reset.getV 1) ∧
    (∃ t, exec (.drwVxVyN 15 1 5) State.reset = .next t ∧ t.result = .ok ∧ t.getV 15 = State.reset.getV 15 ∧
      t.getV 1 = State.reset.getV 1) := ⟨⟨_, rfl, rfl, rfl, rfl⟩, ⟨_, rfl, rfl, rfl, rfl⟩⟩
/-- The corners of the active grid in both modes, and the smallest store that has a cell for each of its pixels. -/
theorem test_witness_ScrollsMoveActiveGrid :
    State.reset.VideoCovers ∧ (State.resetWith baseConfig).VideoCovers ∧
      ({ State.reset with extendedGraphicsMode := true }).VideoCovers ∧
      ¬({ State.resetWith baseConfig with extendedGraphicsMode := true }).VideoCovers ∧
      63 < State.reset.width ∧ 31 < State.reset.height ∧
      127 < ({ State.reset with extendedGraphicsMode := true }).width ∧
      63 < ({ State.reset with extendedGraphicsMode := true }).height := by decide
theorem test_witness_ResetIsIdempotent : (start 0x6A05).config = State.reset.config := rfl
theorem test_witness_ExitIsDelivered :
    let s := start 0x00FD
    s.StepIsNext ∧ s.pc.toNat ≤ 0x0FFE ∧ decode s.config.schip (wordAt s) = .ok .exit := by decide
theorem test_witness_AuxiliaryRegisterBlocks : (7 : Reg).val ≤ 7 ∧ (0 : Reg).val ≤ 7 := by decide
theorem test_witness_LoadProgramCopiesOrRefuses :
    (List.replicate 3585 (0xAB : Byte)).length > 3584 ∧ State.reset.MemoryWf ∧
      (List.replicate 3584 (0xAB : Byte)).length ≤ 3584 := by
  simp only [List.length_replicate]
  decide
theorem test_witness_TicksCountDownToZero :
    0 < 2 ∧ ({ State.reset with schedule := [.tick, .tick] }).schedule = List.replicate 2 .tick := by decide
theorem test_witness_ImportInstallsSnapshot :
    (Snapshot.reset defaultConfig).wellTyped defaultConfig = true ∧
      ({ Snapshot.reset defaultConfig with sp := 16 }).wellTyped defaultConfig = true ∧
      ({ Snapshot.reset defaultConfig with sp := 17 }).wellTyped defaultConfig = false ∧
      ({ Snapshot.reset defaultConfig with memory := [(0x1000, 1)] }).wellTyped defaultConfig = false ∧
      State.reset.WellTyped := by decide
/-- With `SCHIP` false an extended mode and a store of 8192 cells are ill-typed. -/
theorem test_witness_import_base :
    ({ Snapshot.reset baseConfig with extendedGraphicsMode := true }).wellTyped baseConfig = false ∧
      (Snapshot.reset defaultConfig).wellTyped baseConfig = false ∧
      (Snapshot.reset baseConfig).wellTyped baseConfig = true := by decide

end Sys2Proof.Tests
end

/-! ## Proofs: the family `00_scope.md` -/

namespace Sys2Proof.Machine

/-! ### The parameters and the schedule through one operation (R6, log entries 6 and 7) -/

/-- `t` has the parameters and the schedule of `s`, the two fields that no operation writes. -/
def State.SameHost (s t : State) : Prop := t.config = s.config ∧ t.schedule = s.schedule

@[simp] theorem State.sameHost_iff (s t : State) :
    s.SameHost t ↔ t.config = s.config ∧ t.schedule = s.schedule := Iff.rfl

theorem complete_sameHost {s s' t : State} (h : complete s' = .next t) (hs : s.SameHost s') : s.SameHost t := by
  obtain rfl := (complete_eq_next _ _).1 h
  exact hs

theorem raise_sameHost {kind : Result} {s t : State} (h : raise kind s = .next t) : s.SameHost t := by
  obtain rfl := (raise_eq_next _ _ _).1 h
  exact ⟨rfl, rfl⟩

theorem accessThroughI_sameHost {n : Nat} {s t : State} {effect : Nat → State}
    (h : accessThroughI n s effect = .next t) (he : ∀ a, s.SameHost (effect a)) : s.SameHost t := by
  obtain ⟨-, rfl⟩ | ⟨-, -, rfl⟩ := accessThroughI_cases h
  · exact he s.i.toNat
  · exact ⟨rfl, rfl⟩

theorem call_sameHost {target : Word} {s t : State} (h : call target s = .next t) : s.SameHost t := by
  obtain ⟨-, rfl⟩ | ⟨-, rfl⟩ := call_cases h <;> exact ⟨rfl, rfl⟩

theorem returnFromCall_sameHost {s t : State} (h : returnFromCall s = .next t) : s.SameHost t := by
  obtain ⟨-, rfl⟩ | ⟨-, rfl⟩ := returnFromCall_cases h <;> exact ⟨rfl, rfl⟩

theorem skipOnKey_sameHost {pressed : Bool} {x : Reg} {s t : State} (h : skipOnKey pressed x s = .next t) :
    s.SameHost t := by
  obtain ⟨-, rfl⟩ | ⟨-, rfl⟩ := skipOnKey_cases h <;> simp

theorem execLdVxK_sameHost {x : Reg} {s t : State} (h : execLdVxK x s = .next t) : s.SameHost t := by
  unfold execLdVxK at h
  split at h
  · exact complete_sameHost h (by simp)
  · exact complete_sameHost h (by simp)

/-- The arms that branch or raise are named; each of the others completes, having written fields of R20 and the
counter `draws` alone. -/
theorem exec_sameHost {i : Instr} {s t : State} (h : exec i s = .next t) : s.SameHost t := by
  cases i
  case ret => exact returnFromCall_sameHost h
  case callNnn => exact call_sameHost h
  case drwVxVyN | ldBVx | ldMemVx | ldVxMem =>
    simp only [exec, execDrwVxVyN, execLdBVx, execLdMemVx, execLdVxMem] at h
    exact accessThroughI_sameHost h fun _ => by simp
  case skpVx | sknpVx => exact skipOnKey_sameHost h
  case ldVxK => exact execLdVxK_sameHost h
  case exit => exact raise_sameHost h
  all_goals exact complete_sameHost h (by simp)

theorem stepInstruction_sameHost {s t : State} (h : stepInstruction s = .next t) : s.SameHost t := by
  obtain ⟨-, rfl⟩ | ⟨-, -, rfl⟩ | ⟨-, i, -, he⟩ := stepInstruction_cases h
  · exact ⟨rfl, rfl⟩
  · exact ⟨rfl, rfl⟩
  · simpa using exec_sameHost he

theorem loadProgram_sameHost {bytes : List Byte} {s t : State} (h : loadProgram bytes s = .next t) :
    s.SameHost t := by
  unfold loadProgram at h
  split at h
  · exact raise_sameHost h
  · exact complete_sameHost h (by simp)

theorem importState_sameHost {snapshot : Snapshot} {s t : State} (h : importState snapshot s = .next t) :
    s.SameHost t := by
  unfold importState at h
  split at h
  · exact complete_sameHost h ⟨rfl, rfl⟩
  · cases h

/-- No operation, the host's among them, writes the parameters or the schedule. -/
theorem operate_sameHost {op : Operation} {s t : State} (h : operate op s = .next t) : s.SameHost t := by
  cases op with
  | reset => exact complete_sameHost h ⟨rfl, rfl⟩
  | loadProgram bytes => exact loadProgram_sameHost h
  | step => exact stepInstruction_sameHost h
  | tick => exact complete_sameHost h ⟨rfl, rfl⟩
  | writeKeys keys => exact complete_sameHost h ⟨rfl, rfl⟩
  | clearRefresh => exact complete_sameHost h ⟨rfl, rfl⟩
  | exportState => exact complete_sameHost h ⟨rfl, rfl⟩
  | importState snapshot => exact importState_sameHost h

/-- Settles O13: the driver's `step()` leaves the empty schedule, and a scheduled operation runs on the state without
the head of its schedule; neither writes the parameters or what is left of the schedule. -/
theorem parametersAreFixed : Obligations.ParametersAreFixed := by
  unfold Obligations.ParametersAreFixed
  intro s t h
  obtain ⟨hs, hstep⟩ | ⟨op, rest, hs, hop⟩ := step_cases h
  · obtain ⟨hconfig, hschedule⟩ := stepInstruction_sameHost hstep
    exact ⟨hconfig, by simp [hschedule, hs]⟩
  · obtain ⟨hconfig, hschedule⟩ := operate_sameHost hop
    exact ⟨hconfig, by simp [hschedule, hs]⟩

/-! ### The decoder on sample words (R97, R98) -/

/-- Settles O6: the rows are evaluated at each of the nineteen words. -/
theorem sampleWordsDecode : Obligations.SampleWordsDecode := by
  unfold Obligations.SampleWordsDecode
  decide

/-! ### The move that is a `step()`, and the scheduled operation (R7, R8) -/

@[simp] theorem State.dequeued_fetchWord (s : State) : s.dequeued.fetchWord = s.fetchWord := by
  simp [State.dequeued]

/-- Settles O7: taking the head off the schedule changes neither `pc` nor the word fetched, so the move runs the same
instruction as the bare `step()`. -/
theorem stepRunsDecodedInstruction : Obligations.StepRunsDecodedInstruction := by
  unfold Obligations.StepRunsDecodedInstruction
  intro s i hpc hword
  have hdecode : decode s.config.schip s.fetchWord = .ok i := hword
  have hdequeued : decode s.dequeued.config.schip s.dequeued.fetchWord = .ok i := by
    rwa [State.dequeued_fetchWord]
  refine ⟨stepInstruction_decoded hpc hdecode, fun hnext => ?_, word_add_two (by omega)⟩
  calc step s = stepInstruction s.dequeued := step_stepIsNext hnext
    _ = exec i s.dequeued.advance := stepInstruction_decoded hpc hdequeued

/-- Settles O8: the case of `step` with an operation scheduled. -/
theorem stepPerformsScheduledOperation : Obligations.StepPerformsScheduledOperation := by
  unfold Obligations.StepPerformsScheduledOperation
  intro s op rest hs
  exact step_scheduled hs

end Sys2Proof.Machine

/-! ## Proofs: the family `10_state.md` -/

namespace Sys2Proof.Machine

/-! ### What executing an instruction can do, said once (R125, R126) -/

/-- The changes an instruction can make to the state that fetch leaves, with what the invariants need to know of each:
how far a jump goes, where a store ends, and which changes only the extension makes. -/
inductive Effect (s : State) : Instr → State → Prop
  /-- A result other than `Ok` and nothing else (R126). -/
  | fault {i : Instr} {kind : Result} (hk : kind ≠ .ok) : Effect s i { s with result := kind }
  /-- V registers and `I`; CXKK also counts its draw. -/
  | registers {i : Instr} (v : Vector Byte 16) (index : Word) (draws : Nat) :
      Effect s i { s with v := v, i := index, draws := draws, result := .ok }
  | setDelayTimer (x : Reg) : Effect s (.ldDtVx x) { s with delayTimer := s.getV x, result := .ok }
  | setSoundTimer (x : Reg) : Effect s (.ldStVx x) { s with soundTimer := s.getV x, result := .ok }
  | jump {i : Instr} {target : Word} (ht : target.toNat ≤ 0x10FE) : Effect s i { s with pc := target, result := .ok }
  | skip {i : Instr} (condition : Bool) : Effect s i { skipWhen condition s with result := .ok }
  /-- FX0A with no key down: back to its own address (R224). -/
  | again (x : Reg) : Effect s (.ldVxK x) { s with pc := s.pc - 2, result := .ok }
  | push (nnn : Address) (hs : s.sp.toNat < 16) :
      Effect s (.callNnn nnn) { s with
        stack := s.stack.set s.sp.toNat s.pc, sp := s.sp + 1, pc := nnn.setWidth 16, result := .ok }
  | pop (hs : 0 < s.sp.toNat ∧ s.sp.toNat ≤ 16) :
      Effect s .ret { s with pc := s.stack[s.sp.toNat - 1], sp := s.sp - 1, result := .ok }
  | store {i : Instr} {a : Nat} {bytes : List Byte} (index : Word) (ha : a + bytes.length ≤ memorySize) :
      Effect s i { s.storeBytes a bytes with i := index, result := .ok }
  | draw {i : Instr} (x0 y0 : Byte) (sprite : List Byte) :
      Effect s i { s.withSprite x0 y0 sprite with result := .ok }
  | scroll {i : Instr} (active : Nat → Strip) :
      Effect s i { s with
        videoMemory := s.videoMemory.withActive s.width s.height active, refreshScreen := true, result := .ok }
  | clear : Effect s .cls { s with videoMemory := s.videoMemory.cleared, refreshScreen := true, result := .ok }
  | setMode {i : Instr} (extended : Bool) (hi : i.isExtension = true) :
      Effect s i { s with
        extendedGraphicsMode := extended, videoMemory := s.videoMemory.cleared, refreshScreen := true, result := .ok }
  | saveRegisters {i : Instr} (r : Vector Byte 8) (hi : i.isExtension = true) :
      Effect s i { s with r := r, result := .ok }

theorem Effect.of_complete {i : Instr} {s s' t : State} (h : complete s' = .next t)
    (he : Effect s i { s' with result := .ok }) : Effect s i t := by
  obtain rfl := (complete_eq_next _ _).1 h
  exact he

theorem Effect.of_accessThroughI {i : Instr} {n : Nat} {s t : State} {effect : Nat → State}
    (h : accessThroughI n s effect = .next t)
    (he : n = 0 ∨ s.i.toNat + n ≤ memorySize → Effect s i { effect s.i.toNat with result := .ok }) :
    Effect s i t := by
  obtain ⟨hin, rfl⟩ | ⟨-, -, rfl⟩ := accessThroughI_cases h
  · exact he hin
  · exact .fault (by simp)

theorem Effect.of_skipOnKey {i : Instr} {pressed : Bool} {x : Reg} {s t : State}
    (h : skipOnKey pressed x s = .next t) : Effect s i t := by
  obtain ⟨-, rfl⟩ | ⟨-, rfl⟩ := skipOnKey_cases h
  · exact .fault (by simp)
  · exact .skip _

theorem Effect.of_call {nnn : Address} {s t : State} (h : call (nnn.setWidth 16) s = .next t) :
    Effect s (.callNnn nnn) t := by
  obtain ⟨hs, rfl⟩ | ⟨-, rfl⟩ := call_cases h
  · exact .push nnn hs
  · exact .fault (by simp)

theorem Effect.of_returnFromCall {s t : State} (h : returnFromCall s = .next t) : Effect s .ret t := by
  obtain ⟨-, rfl⟩ | ⟨hs, rfl⟩ := returnFromCall_cases h
  · exact .fault (by simp)
  · exact .pop hs

theorem Effect.of_execLdVxK {x : Reg} {s t : State} (h : execLdVxK x s = .next t) : Effect s (.ldVxK x) t := by
  unfold execLdVxK at h
  split at h
  · exact .of_complete h (.registers _ _ _)
  · exact .of_complete h (.again x)

/-- BNNN reaches at most 0xFFF + 0xFF (R28, R147). -/
theorem jumpOffset_le (nnn : Address) (b : Byte) :
    (nnn.setWidth 16 + b.setWidth 16 : Word).toNat ≤ 0x10FE := by
  have := nnn.isLt
  have := b.isLt
  simp only [BitVec.toNat_add, BitVec.toNat_setWidth]
  omega

/-- The inversion of `exec`: an instruction that answers a next state made one of these changes. -/
theorem exec_effect {i : Instr} {s t : State} (h : exec i s = .next t) : Effect s i t := by
  cases i
  case cls => exact .of_complete h .clear
  case ret => exact .of_returnFromCall h
  case jpNnn nnn => exact .of_complete h (.jump (by have := nnn.isLt; simp; omega))
  case jpV0Nnn nnn => exact .of_complete h (.jump (jumpOffset_le nnn _))
  case callNnn => exact .of_call h
  case seVxKk | sneVxKk | seVxVy | sneVxVy => exact .of_complete h (.skip _)
  case skpVx | sknpVx => exact .of_skipOnKey h
  case ldVxK => exact .of_execLdVxK h
  case ldDtVx x => exact .of_complete h (.setDelayTimer x)
  case ldStVx x => exact .of_complete h (.setSoundTimer x)
  case drwVxVyN =>
    simp only [exec, execDrwVxVyN] at h
    exact .of_accessThroughI h fun _ => .draw _ _ _
  case ldBVx x =>
    simp only [exec, execLdBVx] at h
    exact .of_accessThroughI h fun hin =>
      .store (bytes := decimalDigits (s.getV x)) s.i (by simpa [decimalDigits] using hin)
  case ldMemVx x =>
    simp only [exec, execLdMemVx] at h
    exact .of_accessThroughI h fun hin => .store _ (by rw [blockOf_length _ (by omega)]; omega)
  case ldVxMem =>
    simp only [exec, execLdVxMem] at h
    exact .of_accessThroughI h fun _ => .registers _ _ _
  case scdN | scr | scl => exact .of_complete h (.scroll _)
  case exit => exact (raise_eq_next _ _ _).1 h ▸ .fault (by simp)
  case low | high => exact .of_complete h (.setMode _ rfl)
  case ldRVx => exact .of_complete h (.saveRegisters _ rfl)
  all_goals exact .of_complete h (.registers _ _ _)

/-! ### Well-typed states (R46, R52, R290) -/

/-- What `SCHIP` allows of the extension's state: with it false, no extended mode and no R register set (R290). -/
def State.ExtensionOk (s : State) : Prop :=
  s.config.schip = true ∨ s.extendedGraphicsMode = false ∧ s.r = Vector.replicate 8 0

theorem State.wellTyped_iff (s : State) :
    s.WellTyped ↔ s.MemoryWf ∧ s.sp.toNat ≤ 16 ∧ s.videoMemory.size = cellCount s.config.schip ∧ s.ExtensionOk := by
  simp [State.WellTyped, Snapshot.wellTyped, State.ExtensionOk, and_assoc]

theorem State.MemoryWf.storeBytes {s : State} (hs : s.MemoryWf) {a : Nat} {bytes : List Byte}
    (ha : a + bytes.length ≤ memorySize) : (s.storeBytes a bytes).MemoryWf :=
  Memory.writeAll_wf _ bytes _ ha hs

/-- Every change of an instruction keeps the state well-typed; the extension's instructions run only with `SCHIP`
true. -/
theorem Effect.wellTyped {i : Instr} {s t : State} (h : Effect s i t)
    (hi : i.isExtension = true → s.config.schip = true) (hs : s.WellTyped) : t.WellTyped := by
  rw [State.wellTyped_iff] at hs ⊢
  obtain ⟨hmem, hsp, hsize, hext⟩ := hs
  cases h with
  | fault | registers | setDelayTimer | setSoundTimer | jump | again => exact ⟨hmem, hsp, hsize, hext⟩
  | skip condition => cases condition <;> exact ⟨hmem, hsp, hsize, hext⟩
  | push nnn hlt => exact ⟨hmem, by simp [BitVec.toNat_add]; omega, hsize, hext⟩
  | pop hpos => exact ⟨hmem, by simp [BitVec.toNat_sub]; omega, hsize, hext⟩
  | store index ha => exact ⟨hmem.storeBytes ha, hsp, hsize, hext⟩
  | draw x0 y0 sprite => exact ⟨hmem, hsp, (s.drawn_store x0 y0 sprite).1.trans hsize, hext⟩
  | scroll active => exact ⟨hmem, hsp, (Video.size_withActive _ _ _ _).trans hsize, hext⟩
  | clear => exact ⟨hmem, hsp, (Video.size_cleared _).trans hsize, hext⟩
  | setMode extended hx => exact ⟨hmem, hsp, (Video.size_cleared _).trans hsize, .inl (hi hx)⟩
  | saveRegisters r hx => exact ⟨hmem, hsp, hsize, .inl (hi hx)⟩

theorem basePatterns_not_extension (w : Word) : ∀ p ∈ basePatterns w, p.instr.isExtension = false := by
  simp [basePatterns, Instr.isExtension]

/-- The extension's instructions decode only when `SCHIP` is true (R98, R250). -/
theorem schip_of_decode_extension {schip : Bool} {w : Word} {i : Instr} (h : decode schip w = .ok i)
    (hi : i.isExtension = true) : schip = true := by
  cases schip with
  | true => rfl
  | false =>
    unfold decode at h
    split at h
    · next p hp =>
      have hbase := basePatterns_not_extension w p (List.mem_of_find?_eq_some hp)
      cases h
      simp [hbase] at hi
    · cases h

theorem stepInstruction_wellTyped {s t : State} (hs : s.WellTyped) (h : stepInstruction s = .next t) :
    t.WellTyped := by
  obtain ⟨-, rfl⟩ | ⟨-, -, rfl⟩ | ⟨-, i, hd, he⟩ := stepInstruction_cases h
  · exact hs
  · exact hs
  · exact (exec_effect he).wellTyped (schip_of_decode_extension hd) hs

theorem Snapshot.reset_wellTyped (c : Config) : (Snapshot.reset c).wellTyped c = true := by
  simp [Snapshot.wellTyped, Snapshot.reset, Memory.wf, Memory.wfFrom]

/-- `load_program` refuses a program too large, else stores its bytes (R280, R281). -/
theorem loadProgram_cases {bytes : List Byte} {s t : State} (h : loadProgram bytes s = .next t) :
    (programMax < bytes.length ∧ t = { s with result := .programTooLarge bytes.length }) ∨
    (bytes.length ≤ programMax ∧ t = { s.storeBytes programBase bytes with result := .ok }) := by
  unfold loadProgram at h
  split at h
  · next hlen => exact .inl ⟨hlen, (raise_eq_next _ _ _).1 h⟩
  · next hlen => exact .inr ⟨by omega, (complete_eq_next _ _).1 h⟩

theorem loadProgram_wellTyped {bytes : List Byte} {s t : State} (hs : s.WellTyped)
    (h : loadProgram bytes s = .next t) : t.WellTyped := by
  obtain ⟨-, rfl⟩ | ⟨hlen, rfl⟩ := loadProgram_cases h
  · exact hs
  · rw [State.wellTyped_iff] at hs ⊢
    obtain ⟨hmem, hrest⟩ := hs
    exact ⟨hmem.storeBytes (by simp only [programMax, programBase, memorySize] at *; omega), hrest⟩

theorem importState_wellTyped {snapshot : Snapshot} {s t : State} (h : importState snapshot s = .next t) :
    t.WellTyped := by
  unfold importState at h
  split at h
  · next hw =>
    obtain rfl := (complete_eq_next _ _).1 h
    exact hw
  · cases h

theorem operate_wellTyped {op : Operation} {s t : State} (hs : s.WellTyped) (h : operate op s = .next t) :
    t.WellTyped := by
  cases op with
  | reset =>
    obtain rfl := (complete_eq_next _ _).1 h
    exact Snapshot.reset_wellTyped _
  | loadProgram bytes => exact loadProgram_wellTyped hs h
  | step => exact stepInstruction_wellTyped hs h
  | tick | writeKeys | clearRefresh | exportState =>
    obtain rfl := (complete_eq_next _ _).1 h
    exact hs
  | importState snapshot => exact importState_wellTyped h

/-- Settles O16: each change an instruction can make keeps the form, and so does each operation of the host; an import
installs only a well-typed snapshot. -/
theorem stepKeepsWellTyped : Obligations.StepKeepsWellTyped := by
  unfold Obligations.StepKeepsWellTyped
  intro s t hs h
  have ht : t.WellTyped := by
    obtain ⟨-, hstep⟩ | ⟨op, rest, -, hop⟩ := step_cases h
    · exact stepInstruction_wellTyped hs hstep
    · exact operate_wellTyped (s := { s with schedule := rest }) hs hop
  exact ⟨ht, ht.videoCovers⟩

/-! ### The bounds of a run without `import_state` (R28, R46, R52) -/

/-- Every stack entry in use is at most 0x1000 (R52). -/
def State.StackBounded (s : State) : Prop := ∀ k : Fin 16, k.val < s.sp.toNat → (s.stack[k.val]).toNat ≤ 0x1000

/-- Every cell outside the active grid is 0 (R46). -/
def State.DarkOutside (s : State) : Prop := s.videoMemory.darkOutside s.width s.height = true

theorem State.bounded_iff (s : State) :
    s.Bounded ↔ s.pc.toNat ≤ 0x10FE ∧ s.StackBounded ∧ s.DarkOutside := Iff.rfl

/-- A call from a fetched instruction pushes a bounded return address (R141). -/
theorem State.StackBounded.push {s : State} (hs : s.StackBounded) (hpc : s.pc.toNat ≤ 0x1000)
    (hsp : s.sp.toNat < 16) (target : Word) (k : Result) :
    State.StackBounded { s with
      stack := s.stack.set s.sp.toNat s.pc, sp := s.sp + 1, pc := target, result := k } := by
  intro j hj
  have hj' : j.val ≤ s.sp.toNat := by simp [BitVec.toNat_add] at hj; omega
  simp only [Vector.getElem_set]
  split
  · exact hpc
  · exact hs j (by omega)

/-- A return takes a bounded address and leaves the entries below it (R143). -/
theorem State.StackBounded.pop {s : State} (hs : s.StackBounded) (hsp : 0 < s.sp.toNat ∧ s.sp.toNat ≤ 16) :
    (s.stack[s.sp.toNat - 1]).toNat ≤ 0x1000 ∧
    ∀ k : Fin 16, k.val < (s.sp - 1).toNat → (s.stack[k.val]).toNat ≤ 0x1000 := by
  refine ⟨hs ⟨s.sp.toNat - 1, by omega⟩ (by simp; omega), fun k hk => hs k ?_⟩
  simp [BitVec.toNat_sub] at hk
  omega

theorem State.DarkOutside.withActive {s : State} (hs : s.DarkOutside) (active : Nat → Strip) :
    (s.videoMemory.withActive s.width s.height active).darkOutside s.width s.height = true :=
  Video.darkOutside_withActive _ (gridCells_dvd _) _ hs

theorem skipWhen_pc_le {s : State} (condition : Bool) (hpc : s.pc.toNat ≤ 0x1000) :
    (skipWhen condition s).pc.toNat ≤ 0x10FE := by
  rw [skipWhen_pc]
  split
  · rw [word_add_two hpc]; omega
  · omega

/-- Every change of an instruction fetched from `memory`, whose `pc` is then 2 to 0x1000, keeps the bounds. -/
theorem Effect.bounded {i : Instr} {s t : State} (h : Effect s i t) (hpc : 2 ≤ s.pc.toNat ∧ s.pc.toNat ≤ 0x1000)
    (hs : s.Bounded) : t.Bounded := by
  rw [State.bounded_iff] at hs ⊢
  obtain ⟨hle, hstack, hdark⟩ := hs
  cases h with
  | fault | registers | setDelayTimer | setSoundTimer | store | saveRegisters => exact ⟨hle, hstack, hdark⟩
  | jump ht => exact ⟨ht, hstack, hdark⟩
  | skip condition =>
    refine ⟨skipWhen_pc_le condition hpc.2, ?_, ?_⟩
    · cases condition <;> exact hstack
    · cases condition <;> exact hdark
  | again x => exact ⟨by simp [BitVec.toNat_sub]; omega, hstack, hdark⟩
  | push nnn hsp => exact ⟨by have := nnn.isLt; simp; omega, hstack.push hpc.2 hsp _ _, hdark⟩
  | pop hsp =>
    obtain ⟨htop, hbelow⟩ := hstack.pop hsp
    exact ⟨by simp only; omega, hbelow, hdark⟩
  | draw x0 y0 sprite => exact ⟨hle, hstack, s.darkOutside_drawn x0 y0 sprite hdark⟩
  | scroll active => exact ⟨hle, hstack, hdark.withActive active⟩
  | clear | setMode => exact ⟨hle, hstack, Video.darkOutside_cleared _ (gridCells_dvd _)⟩

theorem State.advance_toNat {s : State} (hpc : s.pc.toNat ≤ 0x0FFE) : s.advance.pc.toNat = s.pc.toNat + 2 :=
  word_add_two (by omega)

theorem State.Bounded.advance {s : State} (hs : s.Bounded) (hpc : s.pc.toNat ≤ 0x0FFE) : s.advance.Bounded := by
  obtain ⟨-, hstack, hdark⟩ := hs
  exact ⟨by rw [State.advance_toNat hpc]; omega, hstack, hdark⟩

theorem stepInstruction_bounded {s t : State} (hs : s.Bounded) (h : stepInstruction s = .next t) : t.Bounded := by
  obtain ⟨-, rfl⟩ | ⟨hpc, -, rfl⟩ | ⟨hpc, i, -, he⟩ := stepInstruction_cases h
  · exact hs
  · exact hs.advance hpc
  · have hadvance := State.advance_toNat hpc
    exact (exec_effect he).bounded (by omega) (hs.advance hpc)

theorem reset_bounded (s : State) (k : Result) :
    State.Bounded { s with toSnapshot := Snapshot.reset s.config, result := k } := by
  refine ⟨by simp [Snapshot.reset], fun j hj => ?_, Video.darkOutside_dark _ (gridCells_dvd _)⟩
  exact absurd hj (Nat.not_lt_zero _)

theorem loadProgram_bounded {bytes : List Byte} {s t : State} (hs : s.Bounded)
    (h : loadProgram bytes s = .next t) : t.Bounded := by
  obtain ⟨-, rfl⟩ | ⟨-, rfl⟩ := loadProgram_cases h
  · exact hs
  · exact hs

theorem operate_bounded {op : Operation} {s t : State} (hop : op.isImport = false) (hs : s.Bounded)
    (h : operate op s = .next t) : t.Bounded := by
  cases op with
  | reset =>
    obtain rfl := (complete_eq_next _ _).1 h
    exact reset_bounded s .ok
  | loadProgram bytes => exact loadProgram_bounded hs h
  | step => exact stepInstruction_bounded hs h
  | tick | writeKeys | clearRefresh | exportState =>
    obtain rfl := (complete_eq_next _ _).1 h
    exact hs
  | importState snapshot => cases hop

/-- Settles O17: an instruction is executed with `pc` at 2 to 0x1000, from where each change it can make stays within
the bounds; no other operation but `import_state` leaves them. -/
theorem stepKeepsBounds : Obligations.StepKeepsBounds := by
  unfold Obligations.StepKeepsBounds
  intro s t _ hs hno h
  have hschedule : t.schedule = s.schedule.tail := (parametersAreFixed s t h).2
  obtain ⟨hnil, hstep⟩ | ⟨op, rest, hcons, hop⟩ := step_cases h
  · exact ⟨stepInstruction_bounded hs hstep, by simp [State.NoImport, hschedule, hnil]⟩
  · obtain ⟨himport, hrest⟩ : op.isImport = false ∧ (rest.all fun op => !op.isImport) = true := by
      simpa [State.NoImport, hcons] using hno
    exact ⟨operate_bounded (s := { s with schedule := rest }) himport hs hop,
      by simpa [State.NoImport, hschedule, hcons] using hrest⟩

/-! ### What a `step()` leaves of the inputs and the timers (R35, R36, R38, R127) -/

theorem Effect.key_eq {i : Instr} {s t : State} (h : Effect s i t) : t.key = s.key := by
  cases h <;> simp

theorem Effect.refreshScreen_of_set {i : Instr} {s t : State} (h : Effect s i t) (hs : s.refreshScreen = true) :
    t.refreshScreen = true := by
  cases h <;> simp [hs]

theorem Effect.delayTimer_cases {i : Instr} {s t : State} (h : Effect s i t) :
    t.delayTimer = s.delayTimer ∨ ∃ x, i = .ldDtVx x ∧ t.delayTimer = s.getV x := by
  cases h with
  | setDelayTimer x => exact .inr ⟨x, rfl, rfl⟩
  | _ => left; simp

theorem Effect.soundTimer_cases {i : Instr} {s t : State} (h : Effect s i t) :
    t.soundTimer = s.soundTimer ∨ ∃ x, i = .ldStVx x ∧ t.soundTimer = s.getV x := by
  cases h with
  | setSoundTimer x => exact .inr ⟨x, rfl, rfl⟩
  | _ => left; simp

/-- `t` has the keys of `s`, its refresh flag if that was set, and its timers but for the one that the word fetched
names. -/
def InputsAndTimersKept (s t : State) : Prop :=
  t.key = s.key ∧ (s.refreshScreen = true → t.refreshScreen = true) ∧
    (t.delayTimer = s.delayTimer ∨
      ∃ x, decode s.config.schip s.fetchWord = .ok (.ldDtVx x) ∧ t.delayTimer = s.getV x) ∧
    (t.soundTimer = s.soundTimer ∨
      ∃ x, decode s.config.schip s.fetchWord = .ok (.ldStVx x) ∧ t.soundTimer = s.getV x)

/-- The instruction decoded runs on the state with `pc` advanced, whose other fields are those of `s`. -/
theorem stepInstruction_inputsAndTimersKept {s t : State} (h : stepInstruction s = .next t) :
    InputsAndTimersKept s t := by
  obtain ⟨-, rfl⟩ | ⟨-, -, rfl⟩ | ⟨-, i, hd, he⟩ := stepInstruction_cases h
  · exact ⟨rfl, id, .inl rfl, .inl rfl⟩
  · exact ⟨rfl, id, .inl rfl, .inl rfl⟩
  · have heffect := exec_effect he
    refine ⟨heffect.key_eq, heffect.refreshScreen_of_set, ?_, ?_⟩
    · obtain hsame | ⟨x, rfl, hx⟩ := heffect.delayTimer_cases
      · exact .inl hsame
      · exact .inr ⟨x, hd, hx⟩
    · obtain hsame | ⟨x, rfl, hx⟩ := heffect.soundTimer_cases
      · exact .inl hsame
      · exact .inr ⟨x, hd, hx⟩

/-- Settles O12: a move that is a `step()` runs it on the state without the head of its schedule, which has the same
registers and fetches the same word. -/
theorem stepLeavesInputsAndTimers : Obligations.StepLeavesInputsAndTimers := by
  unfold Obligations.StepLeavesInputsAndTimers
  rintro s t (h | ⟨hnext, h⟩)
  · exact stepInstruction_inputsAndTimersKept h
  · rw [step_stepIsNext hnext] at h
    exact stepInstruction_inputsAndTimersKept (s := s.dequeued) h

/-! ### The recorded result is read by nothing (R48, R308, log entry 1) -/

theorem complete_skipWhen_result (s : State) (k : Result) (condition : Bool) :
    complete (skipWhen condition { s with result := k }) = complete (skipWhen condition s) := by
  cases condition <;> rfl

theorem skipOnKey_result (s : State) (k : Result) (pressed : Bool) (x : Reg) :
    skipOnKey pressed x { s with result := k } = skipOnKey pressed x s := by
  simp only [skipOnKey, State.getV_mk, State.keyDown_mk, complete_skipWhen_result]
  rfl

/-- An arm branches on fields of the spec's state alone, and each branch writes its own result over the recorded one. -/
theorem exec_result (i : Instr) (s : State) (k : Result) : exec i { s with result := k } = exec i s := by
  cases i
  case seVxKk | sneVxKk | seVxVy | sneVxVy => exact complete_skipWhen_result s k _
  case skpVx | sknpVx => exact skipOnKey_result s k _ _
  all_goals rfl

theorem stepInstruction_result (s : State) (k : Result) :
    stepInstruction { s with result := k } = stepInstruction s := by
  have hexec (i : Instr) : exec i { s with result := k }.advance = exec i s.advance := exec_result i s.advance k
  simp only [stepInstruction, State.fetchWord_mk, hexec]
  rfl

theorem operate_result (op : Operation) (s : State) (k : Result) :
    operate op { s with result := k } = operate op s := by
  cases op with
  | step => exact stepInstruction_result s k
  | _ => rfl

/-- Settles O14: no operation reads the recorded result, and each writes its own over it. -/
theorem resultIsOutputOnly : Obligations.ResultIsOutputOnly := by
  unfold Obligations.ResultIsOutputOnly
  intro s k
  obtain hs | ⟨op, rest, hs⟩ : s.schedule = [] ∨ ∃ op rest, s.schedule = op :: rest := by
    cases s.schedule <;> simp
  · calc step { s with result := k } = stepInstruction { s with result := k } := step_nothing_scheduled hs
      _ = stepInstruction s := stepInstruction_result s k
      _ = step s := (step_nothing_scheduled hs).symm
  · calc step { s with result := k } = operate op { s with schedule := rest, result := k } := step_scheduled hs
      _ = operate op { s with schedule := rest } := operate_result op { s with schedule := rest } k
      _ = step s := (step_scheduled hs).symm

/-! ### Where an instruction stops the machine (R32, log entry 10) -/

/-- The operation answers a next state: it neither stops the machine nor is refused. -/
def Answers (o : Host.Outcome State Fault Refusal) : Prop := ∃ t, o = .next t

theorem answers_complete (s : State) : Answers (complete s) := ⟨_, rfl⟩

theorem answers_raise (kind : Result) (s : State) : Answers (raise kind s) := ⟨_, rfl⟩

theorem answers_accessThroughI (n : Nat) (s : State) (effect : Nat → State) :
    Answers (accessThroughI n s effect) := by
  unfold accessThroughI
  split
  · exact answers_raise _ _
  · exact answers_complete _

theorem answers_skipOnKey (pressed : Bool) (x : Reg) (s : State) : Answers (skipOnKey pressed x s) := by
  unfold skipOnKey
  split
  · exact answers_raise _ _
  · exact answers_complete _

theorem answers_execLdVxK (x : Reg) (s : State) : Answers (execLdVxK x s) := by
  unfold execLdVxK
  split <;> exact answers_complete _

theorem call_stops (target : Word) {s : State} (h : 16 < s.sp.toNat) : call target s = .fault .stackPointerIllegal := by
  rw [call, dif_neg (by omega), if_neg (by omega)]

theorem answers_call (target : Word) {s : State} (h : s.sp.toNat ≤ 16) : Answers (call target s) := by
  unfold call
  split
  · exact answers_complete _
  · rw [if_pos (by omega)]
    exact answers_raise _ _

theorem returnFromCall_stops {s : State} (h : 16 < s.sp.toNat) :
    returnFromCall s = .fault .stackPointerIllegal := by
  rw [returnFromCall, if_neg (by omega), dif_neg (by omega)]

theorem answers_returnFromCall {s : State} (h : s.sp.toNat ≤ 16) : Answers (returnFromCall s) := by
  unfold returnFromCall
  split
  · exact answers_raise _ _
  · exact answers_complete _

/-- The two instructions that use the stack. -/
def UsesStack (i : Instr) : Prop := i = .ret ∨ ∃ nnn, i = .callNnn nnn

theorem exec_stops {i : Instr} {s : State} (hi : UsesStack i) (hs : 16 < s.sp.toNat) :
    exec i s = .fault .stackPointerIllegal := by
  obtain rfl | ⟨nnn, rfl⟩ := hi
  · exact returnFromCall_stops hs
  · exact call_stops _ hs

/-- Every other instruction answers a next state, and so do these two at a legal `sp`. -/
theorem exec_answers {i : Instr} {s : State} (h : ¬(UsesStack i ∧ 16 < s.sp.toNat)) : Answers (exec i s) := by
  have hlegal (hi : UsesStack i) : s.sp.toNat ≤ 16 := Nat.le_of_not_lt fun hs => h ⟨hi, hs⟩
  cases i
  case ret => exact answers_returnFromCall (hlegal (.inl rfl))
  case callNnn nnn => exact answers_call _ (hlegal (.inr ⟨nnn, rfl⟩))
  case drwVxVyN | ldBVx | ldMemVx | ldVxMem =>
    simp only [exec, execDrwVxVyN, execLdBVx, execLdMemVx, execLdVxMem, answers_accessThroughI]
  case skpVx | sknpVx => exact answers_skipOnKey _ _ _
  case ldVxK => exact answers_execLdVxK _ _
  case exit => exact answers_raise _ _
  all_goals exact answers_complete _

/-- Settles O22: a call or a return at an illegal `sp` ends in the fault, and everything else answers a next state. -/
theorem onlyIllegalStackPointerStops : Obligations.OnlyIllegalStackPointerStops := by
  unfold Obligations.OnlyIllegalStackPointerStops
  intro i s
  by_cases h : UsesStack i ∧ 16 < s.sp.toNat
  · have hstop := exec_stops h.1 h.2
    exact ⟨by simp [hstop], fun _ => h, fun _ => ⟨_, hstop⟩⟩
  · obtain ⟨t, ht⟩ := exec_answers h
    exact ⟨by simp [ht], by simp [ht], fun hi => absurd hi h⟩

/-! ### Flags (R23) -/

/-- The byte VF holds is 0x00 or 0x01 (R23). -/
def State.FlagOk (s : State) : Prop := s.getV 15 = 0x00 ∨ s.getV 15 = 0x01

theorem State.flagOk_setV_flag (s : State) (condition : Bool) : (s.setV regF (flagByte condition)).FlagOk := by
  unfold State.FlagOk
  rw [show (15 : Reg) = regF from rfl, State.getV_setV_same]
  exact flagByte_cases condition

/-- An operation whose last write is a flag in VF, and that completes, leaves a flag there. -/
theorem flagOk_of_complete {s t : State} {condition : Bool}
    (h : complete (s.setV regF (flagByte condition)) = .next t) : t.FlagOk := by
  obtain rfl := (complete_eq_next _ _).1 h
  exact s.flagOk_setV_flag condition

theorem flagOk_of_execDrwVxVyN {x y : Reg} {n : Count} {s t : State} (h : execDrwVxVyN x y n s = .next t)
    (hok : t.result = .ok) : t.FlagOk := by
  obtain ⟨-, rfl⟩ | ⟨-, -, rfl⟩ := accessThroughI_cases h
  · exact State.flagOk_setV_flag _ _
  · cases hok

/-- Settles O35: each of the seven writes a flag byte in VF last (R163); DXYN writes none when it faults. -/
theorem flagsAreZeroOrOne : Obligations.FlagsAreZeroOrOne := by
  unfold Obligations.FlagsAreZeroOrOne
  intro s t x y n i hi h hok
  simp only [List.mem_cons, List.not_mem_nil, or_false] at hi
  obtain rfl | rfl | rfl | rfl | rfl | rfl | rfl := hi
  on_goal 7 => exact flagOk_of_execDrwVxVyN h hok
  all_goals exact flagOk_of_complete h

/-! ### The extension's display instructions (R252 to R264) -/

/-- What moves pixels of the active grid only leaves everything outside it (R46). -/
theorem outsideUnchanged_withActive (s : State) (active : Nat → Strip) (k : Result) :
    OutsideUnchanged s { s with
      videoMemory := s.videoMemory.withActive s.width s.height active, refreshScreen := true, result := k } := by
  refine ⟨fun p hp => Video.cell_withActive_outside _ _ hp, Video.size_withActive _ _ _ _, fun x y hxy => ?_⟩
  exact (Video.pix_outside _ hxy).trans (Video.pix_outside _ hxy).symm

/-- The width and the cells of the active grid as strips of 64, the form the laws of the scrolls are stated in. -/
theorem State.VideoCovers.strips {s : State} (hs : s.VideoCovers) :
    ∃ k, s.width = 64 * k ∧ 128 ∣ 64 * k * s.height ∧ 64 * k * s.height ≤ s.videoMemory.size := by
  have hk := gridWidth_eq s.extendedGraphicsMode
  exact ⟨_, hk, hk ▸ gridCells_dvd _, hk ▸ hs⟩

theorem State.pix_scrollDown {s : State} (hs : s.VideoCovers) (n : Nat) {x y : Nat} (hx : x < s.width)
    (hy : y < s.height) :
    (s.videoMemory.scrollDown s.width s.height n).pix s.width s.height x y =
      if n ≤ y then s.pix x (y - n) else false := by
  obtain ⟨k, hk, hd, hg⟩ := hs.strips
  rw [State.pix, hk]
  exact Video.pix_scrollDown _ n hd (hk ▸ hx) hy hg

theorem State.pix_scrollRight {s : State} (hs : s.VideoCovers) {x y : Nat} (hx : x < s.width) (hy : y < s.height) :
    (s.videoMemory.scrollRight s.width s.height).pix s.width s.height x y =
      if 4 ≤ x then s.pix (x - 4) y else false := by
  obtain ⟨k, hk, hd, hg⟩ := hs.strips
  rw [State.pix, hk]
  exact Video.pix_scrollRight _ hd (hk ▸ hx) hy hg

theorem State.pix_scrollLeft {s : State} (hs : s.VideoCovers) {x y : Nat} (hx : x < s.width) (hy : y < s.height) :
    (s.videoMemory.scrollLeft s.width s.height).pix s.width s.height x y =
      if x + 4 < s.width then s.pix (x + 4) y else false := by
  obtain ⟨k, hk, hd, hg⟩ := hs.strips
  rw [State.pix, hk]
  exact Video.pix_scrollLeft _ hd (hk ▸ hx) hy hg

/-- Settles O51: each scroll is the law of its move on the grid, and moves cells of the active grid only. -/
theorem scrollsMoveActiveGrid : Obligations.ScrollsMoveActiveGrid := by
  unfold Obligations.ScrollsMoveActiveGrid
  intro s n
  refine ⟨⟨_, rfl, fun hs x y hx hy => ?_, outsideUnchanged_withActive s _ .ok, rfl⟩,
    ⟨_, rfl, fun hs x y hx hy => ?_, outsideUnchanged_withActive s _ .ok, rfl⟩,
    ⟨_, rfl, fun hs x y hx hy => ?_, outsideUnchanged_withActive s _ .ok, rfl⟩⟩
  · exact State.pix_scrollDown hs n.val hx hy
  · exact State.pix_scrollRight hs hx hy
  · exact State.pix_scrollLeft hs hx hy

/-- Settles O52: clearing leaves no cell set, in the grid of either mode or outside it. -/
theorem modeInstructionsClear : Obligations.ModeInstructionsClear := by
  unfold Obligations.ModeInstructionsClear
  intro s
  have hpix (w h x y : Nat) : s.videoMemory.cleared.pix w h x y = false := Video.pix_cleared _ _ _ _ _
  exact ⟨⟨_, rfl, rfl, rfl, hpix _ _, Video.cell_cleared _, Video.size_cleared _, rfl⟩,
    ⟨_, rfl, rfl, rfl, hpix _ _, Video.cell_cleared _, Video.size_cleared _, rfl⟩⟩

/-! ### The auxiliary registers (R266, R268) -/

theorem withBlock_blockOf_below {n m : Nat} {source : Vector Byte m} (target : Vector Byte n) {count k : Nat}
    (hcount : count ≤ m) (hk : k < n) (h : k < count) :
    (withBlock target 0 (blockOf source count))[k] = source[k] := by
  rw [withBlock_getElem _ _ _ hk, dif_pos ⟨Nat.zero_le k, by rwa [Nat.sub_zero, blockOf_length source hcount]⟩]
  exact blockOf_getElem source hcount h

theorem withBlock_blockOf_above {n m : Nat} {source : Vector Byte m} (target : Vector Byte n) {count k : Nat}
    (hcount : count ≤ m) (hk : k < n) (h : count ≤ k) :
    (withBlock target 0 (blockOf source count))[k] = target[k] := by
  rw [withBlock_getElem _ _ _ hk, dif_neg (by rw [blockOf_length source hcount]; omega)]

/-- Settles O54: the block copied is the registers up to X, and both files have them since X is at most 7. -/
theorem auxiliaryRegisterBlocks : Obligations.AuxiliaryRegisterBlocks := by
  unfold Obligations.AuxiliaryRegisterBlocks
  intro s x hx
  refine ⟨⟨_, rfl, fun k => ?_, rfl⟩, ⟨_, rfl, fun k => ?_, fun k hk => ?_, rfl⟩⟩
  · split
    · exact withBlock_blockOf_below _ (by omega) _ (by omega)
    · exact withBlock_blockOf_above _ (by omega) _ (by omega)
  · split
    · exact withBlock_blockOf_below _ (by omega) _ (by omega)
    · exact withBlock_blockOf_above _ (by omega) _ (by omega)
  · exact withBlock_blockOf_above _ (by omega) _ (by omega)

/-! ### Ticks (R35, R284) -/

/-- One count, with the floor 0 that subtraction of naturals has (R284). -/
theorem countDown_toNat (t : Byte) : (countDown t).toNat = t.toNat - 1 := by
  unfold countDown
  split
  · next h => simp [h]
  · next h =>
    have hpos : t.toNat ≠ 0 := fun e => h (BitVec.eq_of_toNat_eq e)
    have := t.isLt
    simp [BitVec.toNat_sub]
    omega

theorem playBeep_iff (s : State) : s.playBeep = true ↔ 0 < s.soundTimer.toNat := by
  have : s.soundTimer = 0 ↔ s.soundTimer.toNat = 0 := BitVec.toNat_inj.symm
  simp only [State.playBeep, bne_iff_ne, ne_eq, this]
  omega

theorem iterate_countDown_toNat (n : Nat) (t : Byte) : (countDown^[n] t).toNat = t.toNat - n := by
  induction n generalizing t with
  | zero => rfl
  | succ n ih => rw [Function.iterate_succ_apply, ih, countDown_toNat]; omega

/-- The state after `n` ticks and nothing else. -/
def State.ticked (s : State) (n : Nat) : State :=
  { s with
    delayTimer := countDown^[n] s.delayTimer, soundTimer := countDown^[n] s.soundTimer, schedule := [], result := .ok }

theorem step_tick {s : State} {rest : List Operation} (h : s.schedule = .tick :: rest) :
    step s = .next { s with
      delayTimer := countDown s.delayTimer, soundTimer := countDown s.soundTimer, schedule := rest, result := .ok } :=
  step_scheduled h

theorem run_succ_of_step (M : Host.Core) {n : Nat} {s t : M.State} (h : M.step s = .next t) :
    M.run (n + 1) s = M.run n t := by
  simp only [Host.Core.run, h]

/-- A run of `n` scheduled ticks, each taking one off the schedule. -/
theorem run_ticks {n : Nat} (hn : 1 ≤ n) {s : State} (hs : s.schedule = List.replicate n .tick) :
    core.run n s = .next (s.ticked n) := by
  induction n, hn using Nat.le_induction generalizing s with
  | base => exact run_succ_of_step core (step_tick hs)
  | succ n hn ih => exact (run_succ_of_step core (step_tick hs)).trans (ih rfl)

/-- Settles O58: the ticks iterate the count of each timer, and `n` counts take `n` off, down to 0. -/
theorem ticksCountDownToZero : Obligations.TicksCountDownToZero := by
  unfold Obligations.TicksCountDownToZero
  intro n s hn hs
  have hdelay : (s.ticked n).delayTimer.toNat = s.delayTimer.toNat - n := iterate_countDown_toNat n _
  have hsound : (s.ticked n).soundTimer.toNat = s.soundTimer.toNat - n := iterate_countDown_toNat n _
  refine ⟨s.ticked n, run_ticks hn hs, hdelay, hsound, ?_, rfl⟩
  rw [playBeep_iff, hsound]
  omega

end Sys2Proof.Machine

/-! ## Proofs: the family `20_memory.md` -/

namespace Sys2Proof.Machine

/-! ### Accesses through `I`, by the last address touched (R68, R189) -/

theorem accessThroughI_upTo_inside {s : State} {last : Nat} (effect : Nat → State)
    (h : s.i.toNat + last ≤ 0x0FFF) :
    accessThroughI (last + 1) s effect = .next { effect s.i.toNat with result := .ok } :=
  accessThroughI_inside effect (.inr (Nat.succ_le_succ h))

theorem accessThroughI_upTo_outside {s : State} {last : Nat} (effect : Nat → State)
    (h : s.i.toNat + last > 0x0FFF) :
    accessThroughI (last + 1) s effect = .next { s with result := .memoryOutOfRange (max s.i.toNat 0x1000) } :=
  accessThroughI_outside effect last.succ_pos (Nat.succ_lt_succ h)

/-! ### FX33 (R196) -/

theorem exec_ldBVx (x : Reg) (s : State) :
    exec (.ldBVx x) s = accessThroughI 3 s fun a => s.storeBytes a (decimalDigits (s.getV x)) := rfl

/-- `s` after FX33 has stored the digits of VX inside `memory`. -/
def State.digitsStored (s : State) (x : Reg) : State :=
  { s.storeBytes s.i.toNat (decimalDigits (s.getV x)) with result := .ok }

theorem exec_ldBVx_inside {s : State} {x : Reg} (h : s.i.toNat + 2 ≤ 0x0FFF) :
    exec (.ldBVx x) s = .next (s.digitsStored x) :=
  (exec_ldBVx x s).trans (accessThroughI_upTo_inside _ h)

/-- Each digit fits a byte, so the bytes stored hold the digits themselves. -/
theorem decimalDigits_toNat (b : Byte) :
    (decimalDigits b).map BitVec.toNat = [b.toNat / 100, b.toNat / 10 % 10, b.toNat % 10] := by
  have := b.isLt
  simp only [decimalDigits, List.map_cons, List.map_nil, BitVec.toNat_ofNat, List.cons.injEq, and_true]
  omega

theorem State.digitsStored_byteAt_inside {s : State} {x : Reg} (hs : s.MemoryWf)
    (h : s.i.toNat + 2 ≤ 0x0FFF) {k : Nat} (hk : k < 3) :
    ((s.digitsStored x).byteAt (s.i.toNat + k)).toNat =
      [(s.getV x).toNat / 100, (s.getV x).toNat / 10 % 10, (s.getV x).toNat % 10][k] := by
  calc ((s.digitsStored x).byteAt (s.i.toNat + k)).toNat
    _ = ((decimalDigits (s.getV x))[k]'hk).toNat :=
      congrArg BitVec.toNat (s.byteAt_storeBytes_inside _ hs (Nat.succ_le_succ h) hk)
    _ = ((decimalDigits (s.getV x)).map BitVec.toNat)[k]'hk := (List.getElem_map BitVec.toNat).symm
    _ = [(s.getV x).toNat / 100, (s.getV x).toNat / 10 % 10, (s.getV x).toNat % 10][k] :=
      List.getElem_of_eq (decimalDigits_toNat _) _

theorem State.digitsStored_byteAt_outside (s : State) (x : Reg) {a : Nat}
    (h : a < s.i.toNat ∨ s.i.toNat + 3 ≤ a) : (s.digitsStored x).byteAt a = s.byteAt a :=
  s.byteAt_storeBytes_other _ h

/-- Settles O38: in range the three digits are read back and no other byte is stored; out of range the access through
`I` faults before its effect (R68). -/
theorem binaryCodedDecimal : Obligations.BinaryCodedDecimal := by
  unfold Obligations.BinaryCodedDecimal
  intro s x
  refine ⟨fun hs hi => ?_, fun hi => (exec_ldBVx x s).trans (accessThroughI_upTo_outside _ hi)⟩
  have hdigit {k : Nat} (hk : k < 3) := State.digitsStored_byteAt_inside (x := x) hs hi hk
  exact ⟨s.digitsStored x, exec_ldBVx_inside hi, hdigit (k := 0) (by decide), hdigit (k := 1) (by decide),
    hdigit (k := 2) (by decide), fun _ ha => s.digitsStored_byteAt_outside x ha, rfl⟩

/-! ### FX55 (R198, R202) -/

theorem exec_ldMemVx (x : Reg) (s : State) :
    exec (.ldMemVx x) s = accessThroughI (x.val + 1) s fun a =>
      { s.storeBytes a (blockOf s.v (x.val + 1)) with i := BitVec.ofNat 16 (a + x.val + 1) } := rfl

/-- `s` after FX55 has stored V0 to VX inside `memory` and advanced `I` past them. -/
def State.blockStored (s : State) (x : Reg) : State :=
  { s.storeBytes s.i.toNat (blockOf s.v (x.val + 1)) with i := BitVec.ofNat 16 (s.i.toNat + x.val + 1), result := .ok }

theorem exec_ldMemVx_inside {s : State} {x : Reg} (h : s.i.toNat + x.val ≤ 0x0FFF) :
    exec (.ldMemVx x) s = .next (s.blockStored x) :=
  (exec_ldMemVx x s).trans (accessThroughI_upTo_inside _ h)

/-- Every register of the block is read back at its address. -/
theorem State.blockStored_byteAt_inside {s : State} {x k : Reg} (hs : s.MemoryWf)
    (h : s.i.toNat + x.val ≤ 0x0FFF) (hk : k.val ≤ x.val) :
    (s.blockStored x).byteAt (s.i.toNat + k.val) = s.getV k := by
  have hlen : (blockOf s.v (x.val + 1)).length = x.val + 1 := blockOf_length s.v (by omega)
  calc (s.blockStored x).byteAt (s.i.toNat + k.val)
    _ = (blockOf s.v (x.val + 1))[k.val] :=
      s.byteAt_storeBytes_inside _ hs (by simp only [hlen, memorySize]; omega) (by omega)
    _ = s.getV k := blockOf_getElem s.v (by omega) (by omega)

theorem State.blockStored_byteAt_outside (s : State) {x : Reg} {a : Nat}
    (h : a < s.i.toNat ∨ s.i.toNat + x.val < a) : (s.blockStored x).byteAt a = s.byteAt a :=
  s.byteAt_storeBytes_other _ (by rw [blockOf_length s.v (by omega)]; omega)

/-- `I` is at most 0x1000 after the block, so it does not wrap. -/
theorem State.blockStored_i {s : State} {x : Reg} (h : s.i.toNat + x.val ≤ 0x0FFF) :
    (s.blockStored x).i.toNat = s.i.toNat + x.val + 1 :=
  Nat.mod_eq_of_lt (by omega)

/-- Settles O39: in range the block is read back register by register and no other byte is stored; out of range the
access through `I` faults before its effect (R68). -/
theorem storeRegisterBlock : Obligations.StoreRegisterBlock := by
  unfold Obligations.StoreRegisterBlock
  intro s x
  refine ⟨fun hs hx => ⟨s.blockStored x, exec_ldMemVx_inside hx, fun k hk => ?_, fun a ha => ?_, ?_, rfl⟩,
    fun hx => (exec_ldMemVx x s).trans (accessThroughI_upTo_outside _ hx)⟩
  · exact State.blockStored_byteAt_inside hs hx hk
  · exact s.blockStored_byteAt_outside ha
  · exact State.blockStored_i hx

/-! ### A store and the fetch after it (R63, R73) -/

/-- Settles O42: fetch reads `memory` as FX55 left it, so the two bytes at `pc` are the two registers stored there. -/
theorem storeIsSeenByNextFetch : Obligations.StoreIsSeenByNextFetch := by
  unfold Obligations.StoreIsSeenByNextFetch
  intro s t x k next hs hx hnext hle h hpc
  obtain rfl : s.blockStored x = t := Host.Outcome.next.inj ((exec_ldMemVx_inside hx).symm.trans h)
  have hfirst : (s.blockStored x).byteAt (s.i.toNat + k.val) = s.getV k :=
    State.blockStored_byteAt_inside hs hx (by omega)
  have hsecond : (s.blockStored x).byteAt (s.i.toNat + k.val + 1) = s.getV next := by
    rw [Nat.add_assoc, ← hnext]
    exact State.blockStored_byteAt_inside hs hx hle
  rw [State.fetchWord, hpc, hfirst, hsecond, wordOfBytes]

end Sys2Proof.Machine

/-! ## Proofs: the family `30_encoding.md` -/

namespace Sys2Proof.Machine

/-! ### At most one row of the opcode map matches a word (R94) -/

/-- The word selects one of the rows. -/
def SomeRowMatches (rows : List Pattern) (w : Word) : Prop := ∃ p ∈ rows, w &&& p.mask = p.value

/-- Two rows, each a mask and a match value, ask for different values of a bit that both masks keep. -/
def RowsClash (a b : Word × Word) : Prop := a.2 &&& b.1 ≠ b.2 &&& a.1

theorem not_both_match_of_rowsClash {w : Word} {p q : Pattern}
    (h : RowsClash (p.mask, p.value) (q.mask, q.value)) : ¬(w &&& p.mask = p.value ∧ w &&& q.mask = q.value) := by
  rintro ⟨hp, hq⟩
  apply h
  calc p.value &&& q.mask = w &&& p.mask &&& q.mask := by rw [hp]
    _ = w &&& q.mask &&& p.mask := by rw [BitVec.and_assoc, BitVec.and_comm p.mask, ← BitVec.and_assoc]
    _ = q.value &&& p.mask := by rw [hq]

theorem patterns_rowsClash : ((patterns true 0).map fun p => (p.mask, p.value)).Pairwise RowsClash := by
  unfold RowsClash
  decide

theorem patterns_true_disjoint (w : Word) :
    (patterns true w).Pairwise fun p q => ¬(w &&& p.mask = p.value ∧ w &&& q.mask = q.value) := by
  have hclash : ((patterns true w).map fun p => (p.mask, p.value)).Pairwise RowsClash :=
    patterns_masks true w ▸ patterns_rowsClash
  exact (List.pairwise_map.1 hclash).imp not_both_match_of_rowsClash

theorem basePatterns_sublist (schip : Bool) (w : Word) : (basePatterns w).Sublist (patterns schip w) := by
  cases schip
  · exact List.Sublist.refl _
  · exact List.sublist_append_left _ _

theorem patterns_sublist (schip : Bool) (w : Word) : (patterns schip w).Sublist (patterns true w) := by
  cases schip
  · exact basePatterns_sublist true w
  · exact List.Sublist.refl _

/-- The rows that match a word are one row (R94). -/
theorem matching_row_unique {schip : Bool} {w : Word} {p q : Pattern} (hp : p ∈ patterns schip w)
    (hq : q ∈ patterns schip w) (hpw : w &&& p.mask = p.value) (hqw : w &&& q.mask = q.value) : p = q := by
  by_contra hne
  have hdisjoint := (patterns_true_disjoint w).sublist (patterns_sublist schip w)
  have hsymm : Std.Symm fun p q : Pattern => ¬(w &&& p.mask = p.value ∧ w &&& q.mask = q.value) :=
    ⟨fun _ _ h h' => h h'.symm⟩
  exact hdisjoint.forall hp hq hne ⟨hpw, hqw⟩

/-- Settles O3: any two rows clash on a bit both masks keep, and no mask or match value depends on the word. -/
theorem opcodeRowsDisjoint : Obligations.OpcodeRowsDisjoint := by
  unfold Obligations.OpcodeRowsDisjoint
  exact fun w => ⟨patterns_true_disjoint w, rfl, rfl⟩

/-! ### What the dispatcher answers, by the rows (R94, R100, R123) -/

theorem decode_eq_ok_iff {schip : Bool} {w : Word} {i : Instr} :
    decode schip w = .ok i ↔ ∃ p ∈ patterns schip w, w &&& p.mask = p.value ∧ p.instr = i := by
  unfold decode
  split
  next p hfind =>
    have hp := List.mem_of_find?_eq_some hfind
    have hpw : w &&& p.mask = p.value := by simpa using List.find?_some hfind
    constructor
    · intro h
      exact ⟨p, hp, hpw, Except.ok.inj h⟩
    · rintro ⟨q, hq, hqw, rfl⟩
      rw [matching_row_unique hp hq hpw hqw]
  next hfind =>
    have hnone : ∀ p ∈ patterns schip w, w &&& p.mask ≠ p.value := by simpa using hfind
    constructor
    · intro h
      cases h
    · rintro ⟨q, hq, hqw, -⟩
      exact absurd hqw (hnone q hq)

theorem decode_eq_unknownInstruction_iff {schip : Bool} {w : Word} :
    decode schip w = .error (.unknownInstruction w) ↔ ¬SomeRowMatches (patterns schip w) w := by
  unfold decode SomeRowMatches
  split
  next p hfind =>
    have hpw : w &&& p.mask = p.value := by simpa using List.find?_some hfind
    simp only [reduceCtorEq, false_iff, not_not]
    exact ⟨p, List.mem_of_find?_eq_some hfind, hpw⟩
  next hfind =>
    simpa using hfind

/-- Without a matching row of the extension, `SCHIP` makes no difference (R98). -/
theorem decode_true_eq_decode_false {w : Word} (h : ¬SomeRowMatches (extensionPatterns w) w) :
    decode true w = decode false w := by
  have hnone : (extensionPatterns w).find? (fun p => w &&& p.mask == p.value) = none := by
    simpa [SomeRowMatches] using h
  simp [decode, patterns, List.find?_append, hnone]

/-! ### Decoding an encoded instruction (R112) -/

theorem extensionPatterns_extension (w : Word) : ∀ p ∈ extensionPatterns w, p.instr.isExtension = true := by
  simp [extensionPatterns, Instr.isExtension]

/-- A row of the whole map that reads a base instruction is a base row, so it decodes with `SCHIP` false too. -/
theorem mem_patterns_of_isExtension {schip : Bool} {w : Word} {p : Pattern} (hp : p ∈ patterns true w)
    (hschip : p.instr.isExtension = true → schip = true) : p ∈ patterns schip w := by
  rcases List.mem_append.1 hp with hbase | hext
  · exact (basePatterns_sublist schip w).subset hbase
  · rwa [hschip (extensionPatterns_extension w p hext)]

open Laws.EncodesItsRow in
/-- Every instruction's word matches a row that reads the instruction back. -/
theorem encodesItsRow : ∀ i : Instr, Statement i
  | .cls => cls
  | .ret => ret
  | .jpNnn nnn => jpNnn nnn
  | .callNnn nnn => callNnn nnn
  | .seVxKk x kk => seVxKk x kk
  | .sneVxKk x kk => sneVxKk x kk
  | .seVxVy x y => seVxVy x y
  | .ldVxKk x kk => ldVxKk x kk
  | .addVxKk x kk => addVxKk x kk
  | .ldVxVy x y => ldVxVy x y
  | .orVxVy x y => orVxVy x y
  | .andVxVy x y => andVxVy x y
  | .xorVxVy x y => xorVxVy x y
  | .addVxVy x y => addVxVy x y
  | .subVxVy x y => subVxVy x y
  | .shrVx x y => shrVx x y
  | .subnVxVy x y => subnVxVy x y
  | .shlVx x y => shlVx x y
  | .sneVxVy x y => sneVxVy x y
  | .ldINnn nnn => ldINnn nnn
  | .jpV0Nnn nnn => jpV0Nnn nnn
  | .rndVxKk x kk => rndVxKk x kk
  | .drwVxVyN x y n => drwVxVyN x y n
  | .skpVx x => skpVx x
  | .sknpVx x => sknpVx x
  | .ldVxDt x => ldVxDt x
  | .ldVxK x => ldVxK x
  | .ldDtVx x => ldDtVx x
  | .ldStVx x => ldStVx x
  | .addIVx x => addIVx x
  | .ldFVx x => ldFVx x
  | .ldBVx x => ldBVx x
  | .ldMemVx x => ldMemVx x
  | .ldVxMem x => ldVxMem x
  | .scdN n => scdN n
  | .scr => scr
  | .scl => scl
  | .exit => exit
  | .low => low
  | .high => high
  | .ldHfVx x => ldHfVx x
  | .ldRVx x => ldRVx x
  | .ldVxR x => ldVxR x

theorem decode_encode {schip : Bool} {i : Instr} (hi : i.wellFormed = true)
    (hschip : i.isExtension = true → schip = true) : decode schip (encode i) = .ok i := by
  obtain ⟨p, hp, hmatch, rfl⟩ := encodesItsRow i hi
  exact decode_eq_ok_iff.2 ⟨p, mem_patterns_of_isExtension hp hschip, hmatch, rfl⟩

/-- Settles O1: the two bytes are the encoded word, which matches the instruction's own row and no other. -/
theorem decodeOfEncode : Obligations.DecodeOfEncode := by
  unfold Obligations.DecodeOfEncode
  intro schip i rest hi hschip
  simp [encodeBytes, decodeBytes, wordOfBytes_split, decode_encode hi hschip]

/-! ### Matching a row, in the digits of the word -/

theorem nat_and_eq_iff_div_mod (k a m v : Nat) :
    a &&& m = v ↔ a / 2 ^ k &&& m / 2 ^ k = v / 2 ^ k ∧ a % 2 ^ k &&& m % 2 ^ k = v % 2 ^ k := by
  rw [← Nat.and_div_two_pow, ← Nat.and_mod_two_pow]
  constructor
  · rintro rfl
    exact ⟨rfl, rfl⟩
  · rintro ⟨hdiv, hmod⟩
    rw [← Nat.div_add_mod (a &&& m) (2 ^ k), hdiv, hmod, Nat.div_add_mod]

/-- A mask that keeps the bits from `high` up and the bits below `low` compares those two parts of the word. -/
theorem word_and_eq_iff {high low : Nat} (hlow : low ≤ high) (hhigh : high ≤ 16) {m : Word}
    (hmhigh : m.toNat / 2 ^ high = 2 ^ (16 - high) - 1) (hmlow : m.toNat % 2 ^ high = 2 ^ low - 1) (w v : Word) :
    w &&& m = v ↔ w.toNat / 2 ^ high = v.toNat / 2 ^ high ∧ w.toNat % 2 ^ low = v.toNat % 2 ^ high := by
  have hw : w.toNat / 2 ^ high < 2 ^ (16 - high) := by
    apply Nat.div_lt_of_lt_mul
    rw [← pow_add, Nat.add_sub_cancel' hhigh]
    exact w.isLt
  rw [← BitVec.toNat_inj, BitVec.toNat_and, nat_and_eq_iff_div_mod high, hmhigh, hmlow,
    Nat.and_two_pow_sub_one_of_lt_two_pow hw, Nat.and_two_pow_sub_one_eq_mod,
    Nat.mod_mod_of_dvd _ (Nat.pow_dvd_pow 2 hlow)]

/-- The mask of a row with no operands keeps every bit. -/
theorem word_and_ones (w : Word) : w &&& 0xFFFF#16 = w := BitVec.and_allOnes

/-- 00E0, 00EE and 00FB to 00FF: the whole word. -/
theorem and_ffff_eq_iff (w v : Word) : w &&& 0xFFFF#16 = v ↔ w.toNat = v.toNat := by
  rw [word_and_ones, BitVec.toNat_inj]

/-- 1NNN and the other rows that fix the family only. -/
theorem and_f000_eq_iff (w v : Word) :
    w &&& 0xF000#16 = v ↔ w.toNat / 4096 = v.toNat / 4096 ∧ 0 = v.toNat % 4096 := by
  simpa [Nat.mod_one] using word_and_eq_iff (high := 12) (low := 0) (by decide) (by decide) rfl rfl w v

/-- 8XY0 and the other rows that fix the family and the low digit. -/
theorem and_f00f_eq_iff (w v : Word) :
    w &&& 0xF00F#16 = v ↔ w.toNat / 4096 = v.toNat / 4096 ∧ w.toNat % 16 = v.toNat % 4096 :=
  word_and_eq_iff (high := 12) (low := 4) (by decide) (by decide) rfl rfl w v

/-- FX07 and the other rows that fix the family and the low byte. -/
theorem and_f0ff_eq_iff (w v : Word) :
    w &&& 0xF0FF#16 = v ↔ w.toNat / 4096 = v.toNat / 4096 ∧ w.toNat % 256 = v.toNat % 4096 :=
  word_and_eq_iff (high := 12) (low := 8) (by decide) (by decide) rfl rfl w v

/-- FX75 and FX85: the family, bit 11 and the low byte (R98, D37). -/
theorem and_f8ff_eq_iff (w v : Word) :
    w &&& 0xF8FF#16 = v ↔ w.toNat / 2048 = v.toNat / 2048 ∧ w.toNat % 256 = v.toNat % 2048 :=
  word_and_eq_iff (high := 11) (low := 8) (by decide) (by decide) rfl rfl w v

/-- 00CN: all digits but the last. -/
theorem and_fff0_eq_iff (w v : Word) :
    w &&& 0xFFF0#16 = v ↔ w.toNat / 16 = v.toNat / 16 ∧ 0 = v.toNat % 16 := by
  simpa [Nat.mod_one] using word_and_eq_iff (high := 4) (low := 0) (by decide) (by decide) rfl rfl w v

/-! ### Encoding a decoded word (R91, R94) -/

/-- A field put back where it was read is the word's bits there. -/
theorem extractLsb'_in_place (w : Word) (start len : Nat) :
    (w.extractLsb' start len).setWidth 16 <<< start = w &&& ((BitVec.allOnes len).setWidth 16 <<< start) := by
  refine BitVec.eq_of_getLsbD_eq fun i hi => ?_
  by_cases hs : i < start
  · simp [hs]
  · have hi' : start + (i - start) = i := by omega
    simp [hs, hi', hi, Bool.and_comm]

theorem atX_fieldX (w : Word) : atX (fieldX w) = w &&& 0x0F00#16 := by
  rw [atX, fieldX, BitVec.ofNat_toNat]
  exact extractLsb'_in_place w 8 4

theorem atY_fieldY (w : Word) : atY (fieldY w) = w &&& 0x00F0#16 := by
  rw [atY, fieldY, BitVec.ofNat_toNat]
  exact extractLsb'_in_place w 4 4

theorem low4_fieldN (w : Word) : low4 (fieldN w) = w &&& 0x000F#16 := by
  rw [low4, fieldN, BitVec.ofNat_toNat]
  simpa using extractLsb'_in_place w 0 4

theorem low8_fieldKK (w : Word) : low8 (fieldKK w) = w &&& 0x00FF#16 := by
  simpa [low8, fieldKK] using extractLsb'_in_place w 0 8

theorem low12_fieldNNN (w : Word) : low12 (fieldNNN w) = w &&& 0x0FFF#16 := by
  simpa [low12, fieldNNN] using extractLsb'_in_place w 0 12

/-- The bits of an instruction's word that hold its operands (R91, R97, R98). -/
def operandBits : Instr → Word
  | .jpNnn _ | .callNnn _ | .ldINnn _ | .jpV0Nnn _ => 0x0FFF
  | .seVxKk _ _ | .sneVxKk _ _ | .ldVxKk _ _ | .addVxKk _ _ | .rndVxKk _ _ | .drwVxVyN _ _ _ => 0x0FFF
  | .seVxVy _ _ | .ldVxVy _ _ | .orVxVy _ _ | .andVxVy _ _ | .xorVxVy _ _ | .addVxVy _ _ | .subVxVy _ _
  | .shrVx _ _ | .subnVxVy _ _ | .shlVx _ _ | .sneVxVy _ _ => 0x0FF0
  | .skpVx _ | .sknpVx _ | .ldVxDt _ | .ldVxK _ | .ldDtVx _ | .ldStVx _ | .addIVx _ | .ldFVx _ | .ldBVx _
  | .ldMemVx _ | .ldVxMem _ | .ldHfVx _ | .ldRVx _ | .ldVxR _ => 0x0F00
  | .scdN _ => 0x000F
  | .cls | .ret | .scr | .scl | .exit | .low | .high => 0x0000

/-- A row's instruction is encoded as the row's match value with the word's own operand bits ORed in (R112). -/
theorem encode_row (w : Word) :
    ∀ p ∈ patterns true w, encode p.instr = p.value ||| w &&& operandBits p.instr := by
  simp [patterns, basePatterns, extensionPatterns, encode, operandBits, atX_fieldX, atY_fieldY, low4_fieldN,
    low8_fieldKK, low12_fieldNNN, BitVec.or_assoc, ← BitVec.and_or_distrib_left]

/-- No bit of the word lies outside both a row's mask and its operands. -/
theorem mask_or_operandBits (w : Word) :
    ∀ p ∈ patterns true w, p.mask ||| operandBits p.instr = 0xFFFF#16 := by
  simp only [patterns, basePatterns, extensionPatterns, operandBits, if_true, List.cons_append, List.nil_append,
    List.forall_mem_cons]
  decide

theorem encode_matching_row {w : Word} {p : Pattern} (hp : p ∈ patterns true w) (hpw : w &&& p.mask = p.value) :
    encode p.instr = w := by
  calc encode p.instr = p.value ||| w &&& operandBits p.instr := encode_row w p hp
    _ = w &&& (p.mask ||| operandBits p.instr) := by rw [← hpw, ← BitVec.and_or_distrib_left]
    _ = w := by rw [mask_or_operandBits w p hp, word_and_ones]

theorem fieldX_val (w : Word) : (fieldX w).val = w.toNat / 256 % 16 := by
  simp [fieldX, Nat.shiftRight_eq_div_pow]

theorem fieldX_le_of_match {w v : Word} (h : w &&& 0xF8FF#16 = v) (hv : v.toNat / 2048 = 0x1E) :
    (fieldX w).val ≤ 7 := by
  obtain ⟨hhigh, -⟩ := (and_f8ff_eq_iff w v).1 h
  rw [fieldX_val]
  omega

/-- Only FX75 and FX85 bound an operand, and their mask does it (R98, D37). -/
theorem matching_row_wellFormed {w : Word} :
    ∀ p ∈ patterns true w, w &&& p.mask = p.value → p.instr.wellFormed = true := by
  have h75 (h : w &&& 0xF8FF#16 = 0xF075#16) : (fieldX w).val ≤ 7 := fieldX_le_of_match h rfl
  have h85 (h : w &&& 0xF8FF#16 = 0xF085#16) : (fieldX w).val ≤ 7 := fieldX_le_of_match h rfl
  simpa [patterns, basePatterns, extensionPatterns, Instr.wellFormed] using ⟨h75, h85⟩

theorem decode_ok_encode {schip : Bool} {w : Word} {i : Instr} (h : decode schip w = .ok i) :
    encode i = w ∧ i.wellFormed = true := by
  obtain ⟨p, hp, hpw, rfl⟩ := decode_eq_ok_iff.1 h
  have hrow := (patterns_sublist schip w).subset hp
  exact ⟨encode_matching_row hrow hpw, matching_row_wellFormed p hrow hpw⟩

/-- Settles O2: a matching row fixes the bits under its mask, and its instruction holds all the others. -/
theorem encodeOfDecode : Obligations.EncodeOfDecode := by
  unfold Obligations.EncodeOfDecode
  intro schip w i h
  obtain ⟨hencode, hwf⟩ := decode_ok_encode h
  exact ⟨hencode, hwf, schip_of_decode_extension h⟩

/-! ### The illegal words without the extension (R100) -/

/-- Settles O4: each base row asks for digits of the word, so within one family the two sides ask the same; in
family 8 the listed low digits are the ones no row has. -/
theorem baseIllegalWords : Obligations.BaseIllegalWords := by
  unfold Obligations.BaseIllegalWords
  intro w
  have hfamily : w.toNat / 4096 < 16 := Nat.div_lt_of_lt_mul w.isLt
  have hn : w.toNat % 16 < 16 := Nat.mod_lt _ (by decide)
  have hzero : 0 < w.toNat / 4096 → w.toNat ≠ 0x00E0 ∧ w.toNat ≠ 0x00EE := by omega
  simp only [decode_eq_unknownInstruction_iff, SomeRowMatches, patterns, Bool.false_eq_true, if_false, basePatterns,
    BitVec.ofNat_eq_ofNat, List.mem_cons, List.not_mem_nil, or_false, exists_eq_or_imp, exists_eq_left, not_or,
    and_ffff_eq_iff, and_f000_eq_iff, and_f00f_eq_iff, and_f0ff_eq_iff, BitVec.toNat_ofNat, Nat.reducePow,
    Nat.reduceMod, Nat.reduceDiv]
  generalize w.toNat / 4096 = family at *
  generalize w.toNat % 16 = n at *
  interval_cases family
  all_goals simp [hzero]
  -- Only family 8 is left: the low digits without a row.
  omega

/-! ### The words of the extension (R98, R100) -/

/-- The extension's rows, in the digits of the word. -/
theorem extensionRowMatches_iff (w : Word) : SomeRowMatches (extensionPatterns w) w ↔
    (0x00C0 ≤ w.toNat ∧ w.toNat ≤ 0x00CF) ∨ (0x00FB ≤ w.toNat ∧ w.toNat ≤ 0x00FF) ∨
    (w.toNat / 4096 = 0xF ∧ (w.toNat % 256 = 0x30 ∨
      ((w.toNat % 256 = 0x75 ∨ w.toNat % 256 = 0x85) ∧ w.toNat / 256 % 16 ≤ 7))) := by
  simp [SomeRowMatches, extensionPatterns, and_ffff_eq_iff, and_fff0_eq_iff, and_f0ff_eq_iff, and_f8ff_eq_iff]
  omega

theorem decode_true_extension_iff (w : Word) :
    (∃ i, decode true w = .ok i ∧ i.isExtension = true) ↔ SomeRowMatches (extensionPatterns w) w := by
  constructor
  · rintro ⟨i, hi, hext⟩
    obtain ⟨p, hp, hpw, rfl⟩ := decode_eq_ok_iff.1 hi
    rcases List.mem_append.1 hp with hbase | hp
    · simp [basePatterns_not_extension w p hbase] at hext
    · exact ⟨p, hp, hpw⟩
  · rintro ⟨p, hp, hpw⟩
    exact ⟨p.instr, decode_eq_ok_iff.2 ⟨p, List.mem_append_right _ hp, hpw, rfl⟩,
      extensionPatterns_extension w p hp⟩

/-- A word of the extension matches no base row: the two rows would be one, of the extension and not. -/
theorem decode_false_of_extensionRowMatches {w : Word} (h : SomeRowMatches (extensionPatterns w) w) :
    decode false w = .error (.unknownInstruction w) := by
  obtain ⟨p, hp, hpw⟩ := h
  refine decode_eq_unknownInstruction_iff.2 fun ⟨q, hq, hqw⟩ => ?_
  have hpq : p = q :=
    matching_row_unique (List.mem_append_right _ hp) ((patterns_sublist false w).subset hq) hpw hqw
  have hext := extensionPatterns_extension w p hp
  rw [hpq, basePatterns_not_extension w q hq] at hext
  cases hext

/-- Settles O5: the added words are those that match one of the nine rows, and only these rows depend on `SCHIP`. -/
theorem extensionWords : Obligations.ExtensionWords := by
  unfold Obligations.ExtensionWords
  intro w
  simp only [← extensionRowMatches_iff]
  exact ⟨decode_true_extension_iff w, decode_false_of_extensionRowMatches, decode_true_eq_decode_false⟩

end Sys2Proof.Machine

/-! ## Proofs: the family `40_step_fetch_decode.md` -/

namespace Sys2Proof.Machine

/-! ### A fetch above 0x0FFE and a word no row matches (R121, R124) -/

/-- The lowest address outside `memory` that a fetch above 0x0FFE touches (R121). -/
theorem fetchFault_address {pc : Nat} (h : 0x0FFE < pc) :
    max pc memorySize = if pc = 0x0FFF then 0x1000 else pc := by
  unfold memorySize
  split <;> omega

/-- Settles O10: the fault writes the result alone, so `pc` is still above 0x0FFE and the next fetch faults alike. -/
theorem fetchOutOfRangeIsFixedPoint : Obligations.FetchOutOfRangeIsFixedPoint := by
  unfold Obligations.FetchOutOfRangeIsFixedPoint
  intro s hpc
  rw [← fetchFault_address hpc]
  refine ⟨_, rfl, stepInstruction_outside hpc, stepInstruction_outside hpc, fun hnext => ?_⟩
  exact (step_stepIsNext hnext).trans (stepInstruction_outside (s := s.dequeued) hpc)

/-- Settles O9: taking the head off the schedule changes neither `pc` nor the word fetched. -/
theorem stepOnUnknownInstruction : Obligations.StepOnUnknownInstruction := by
  unfold Obligations.StepOnUnknownInstruction
  intro s e hpc hword
  have hdequeued : decode s.dequeued.config.schip s.dequeued.fetchWord = .error e := by
    rw [State.dequeued_fetchWord]
    exact hword
  refine ⟨stepInstruction_unknown hpc hword, fun hnext => ?_⟩
  rw [step_stepIsNext hnext, stepInstruction_unknown (s := s.dequeued) hpc hdequeued, State.dequeued_fetchWord]
  rfl

/-! ### Precise faults (R126) -/

/-- The only change with a result other than `Ok` is the one that writes the result alone. -/
theorem Effect.eq_of_result_ne_ok {i : Instr} {s t : State} (h : Effect s i t) (hr : t.result ≠ .ok) :
    t = { s with result := t.result } := by
  cases h with
  | fault => rfl
  | _ => exact absurd rfl hr

/-- Settles O19, by what an instruction can change. -/
theorem executeFaultsArePrecise : Obligations.ExecuteFaultsArePrecise := by
  unfold Obligations.ExecuteFaultsArePrecise
  intro i s t h hr
  exact (exec_effect h).eq_of_result_ne_ok hr

/-! ### No move stops a well-typed machine (R127) -/

theorem stepInstruction_answers {s : State} (hsp : s.sp.toNat ≤ 16) : Answers (stepInstruction s) := by
  unfold stepInstruction
  split
  · exact answers_raise _ _
  · split
    · exact exec_answers fun h => absurd h.2 (Nat.not_lt.2 hsp)
    · exact answers_raise _ _

theorem answers_loadProgram (bytes : List Byte) (s : State) : Answers (loadProgram bytes s) := by
  unfold loadProgram
  split
  · exact answers_raise _ _
  · exact answers_complete _

/-- `op` is a move the host has: it imports no ill-typed snapshot (R292). -/
def Operation.Allowed (c : Config) (op : Operation) : Prop :=
  ∀ snapshot, op = .importState snapshot → snapshot.wellTyped c = true

theorem operate_answers {op : Operation} {s : State} (hsp : s.sp.toNat ≤ 16) (hop : op.Allowed s.config) :
    Answers (operate op s) := by
  cases op with
  | step => exact stepInstruction_answers hsp
  | loadProgram bytes => exact answers_loadProgram bytes s
  | importState snapshot =>
    simp only [operate, importState, hop snapshot rfl, if_true, answers_complete]
  | _ => exact answers_complete _

/-- Settles O18: a legal `sp` lets every instruction answer, the schedule allows its head, and the state answered is
well-typed as every state a move leaves (`stepKeepsWellTyped`). -/
theorem wellTypedMachineNeverStops : Obligations.WellTypedMachineNeverStops := by
  unfold Obligations.WellTypedMachineNeverStops
  intro s hs himport
  obtain ⟨-, hsp, -, -⟩ := s.wellTyped_iff.1 hs
  obtain ⟨t, ht⟩ : Answers (step s) := by
    cases hschedule : s.schedule with
    | nil =>
      rw [step_nothing_scheduled hschedule]
      exact stepInstruction_answers hsp
    | cons op rest =>
      rw [step_scheduled hschedule]
      exact operate_answers hsp fun snapshot hop => himport snapshot rest (hop ▸ hschedule)
  exact ⟨t, ht, (stepKeepsWellTyped s t hs ht).1⟩

/-! ### What a sprite draw does (R231 to R235) -/

theorem exec_drwVxVyN (x y : Reg) (n : Count) (s : State) :
    exec (.drwVxVyN x y n) s =
      accessThroughI n.val s fun a => s.withSprite (s.getV x) (s.getV y) (s.bytesAt a n.val) := rfl

theorem exec_drwVxVyN_inside {s : State} {x y : Reg} {n : Count} (h : n.val = 0 ∨ s.i.toNat + n.val - 1 ≤ 0x0FFF) :
    exec (.drwVxVyN x y n) s =
      .next { s.withSprite (s.getV x) (s.getV y) (s.bytesAt s.i.toNat n.val) with result := .ok } :=
  (exec_drwVxVyN x y n s).trans (accessThroughI_inside _ (by unfold memorySize; omega))

/-- A covered pixel lies in the active grid, both coordinates being taken modulo it (R234). -/
theorem SpriteCovers.inside {s : State} {x0 y0 : Byte} {n x y : Nat} (h : SpriteCovers s x0 y0 n x y) :
    x < s.width ∧ y < s.height := by
  obtain ⟨r, c, -, -, rfl, rfl, -⟩ := h
  have hw := (gridWidth_le s.extendedGraphicsMode).1
  have hh := (gridHeight_le s.extendedGraphicsMode).1
  exact ⟨Nat.mod_lt _ (by unfold State.width; omega), Nat.mod_lt _ (by unfold State.height; omega)⟩

theorem SpriteCovers.stored {s : State} {x0 y0 : Byte} {n x y : Nat} (h : SpriteCovers s x0 y0 n x y)
    (hs : s.VideoCovers) : linearPosition s.width x y < s.videoMemory.size :=
  Nat.lt_of_lt_of_le (linearPosition_lt h.inside.1 h.inside.2) hs

/-- The sprite in memory drawn: the pixels that differ are those it covers (R232). -/
theorem State.drawn_pix_eq_iff {s : State} (hs : s.VideoCovers) (x0 y0 : Byte) {n : Nat} (hn : n ≤ 16) (x y : Nat) :
    (s.drawn x0 y0 (s.bytesAt s.i.toNat n)).video.pix s.width s.height x y = s.pix x y ↔
      ¬SpriteCovers s x0 y0 n x y := by
  rw [(s.drawn_spec x0 y0 (by simpa using hn)).1 x y]
  by_cases hc : SpriteCovers s x0 y0 n x y
  · simp [s.mem_spritePoints_iff, hc, hc.stored hs]
  · simp [s.mem_spritePoints_iff, hc]

theorem State.drawn_collision_iff (s : State) (x0 y0 : Byte) {n : Nat} (hn : n ≤ 16) :
    (s.drawn x0 y0 (s.bytesAt s.i.toNat n)).collision = true ↔
      ∃ x y, SpriteCovers s x0 y0 n x y ∧ s.pix x y = true := by
  rw [(s.drawn_spec x0 y0 (by simpa using hn)).2, List.any_eq_true, Prod.exists]
  simp only [s.mem_spritePoints_iff]

theorem State.withSprite_outsideUnchanged (s : State) (x0 y0 : Byte) (sprite : List Byte) (k : Result) :
    OutsideUnchanged s { s.withSprite x0 y0 sprite with result := k } := by
  obtain ⟨hsize, hcell⟩ := s.drawn_store x0 y0 sprite
  exact ⟨hcell, hsize, fun x y hxy => (Video.pix_outside _ hxy).trans (Video.pix_outside _ hxy).symm⟩

/-- Settles O48: the sprite drawn on the store, then its collision in VF. -/
theorem drawTogglesCoveredPixels : Obligations.DrawTogglesCoveredPixels := by
  unfold Obligations.DrawTogglesCoveredPixels
  intro s x y n hn
  have hrows : n.val ≤ 16 := by omega
  have hcollision := s.drawn_collision_iff (s.getV x) (s.getV y) hrows
  have hflag := s.withSprite_getV_flag (s.getV x) (s.getV y) (s.bytesAt s.i.toNat n.val)
  refine ⟨_, exec_drwVxVyN_inside hn, fun hs px py => State.drawn_pix_eq_iff hs _ _ hrows px py,
    s.withSprite_outsideUnchanged _ _ _ _, fun hset => ?_, fun hset => ?_, rfl,
    fun k hk => s.withSprite_getV_other _ _ _ hk, rfl⟩
  · rw [← hcollision] at hset
    rwa [hset] at hflag
  · rw [← hcollision, Bool.not_eq_true] at hset
    rwa [hset] at hflag

/-! ### The frame (R24, R26, R65, R129) -/

theorem withBlock_getElem_above {n : Nat} (bytes : List Byte) (file : Vector Byte n) {k : Nat} (hk : k < n)
    (h : bytes.length ≤ k) : (withBlock file 0 bytes)[k] = file[k] := by
  rw [withBlock_getElem bytes file 0 hk, dif_neg (by omega)]

theorem blockOf_length_le {n : Nat} (file : Vector Byte n) (count : Nat) : (blockOf file count).length ≤ count :=
  List.length_take_le _ _

theorem Unchanged.refl (w : Writes) (s : State) : Unchanged w s s := by
  simp [Unchanged]

/-- The recorded result is outside the frame. -/
theorem Unchanged.of_complete {w : Writes} {s s' t : State} (h : complete s' = .next t) (hs : Unchanged w s s') :
    Unchanged w s t := by
  obtain rfl := (complete_eq_next _ _).1 h
  exact hs

theorem Unchanged.of_raise {w : Writes} {kind : Result} {s t : State} (h : raise kind s = .next t) :
    Unchanged w s t := by
  obtain rfl := (raise_eq_next _ _ _).1 h
  exact Unchanged.refl w s

theorem Unchanged.of_accessThroughI {w : Writes} {n : Nat} {s t : State} {effect : Nat → State}
    (h : accessThroughI n s effect = .next t) (he : Unchanged w s (effect s.i.toNat)) : Unchanged w s t := by
  obtain ⟨-, rfl⟩ | ⟨-, -, rfl⟩ := accessThroughI_cases h
  · exact he
  · exact Unchanged.refl w s

/-! ### The frame after one more write that it allows: only the clause of the field written is proved again -/

theorem Unchanged.setV {w : Writes} {s t : State} (h : Unchanged w s t) {x : Reg} (hx : w.v x = true) (b : Byte) :
    Unchanged w s (t.setV x b) := by
  obtain ⟨hv, hrest⟩ := h
  refine ⟨fun k hk => ?_, hrest⟩
  have hne : k ≠ x := fun e => by simp [e, hx] at hk
  exact (t.getV_setV_other b hne).trans (hv k hk)

/-- A block of bytes in V0, V1, ... leaves the registers above it (R24). -/
theorem Unchanged.vBlock {w : Writes} {s t : State} (h : Unchanged w s t) {bytes : List Byte}
    (hw : ∀ k : Reg, w.v k = false → bytes.length ≤ k.val) :
    Unchanged w s { t with v := withBlock t.v 0 bytes } := by
  obtain ⟨hv, hrest⟩ := h
  refine ⟨fun k hk => ?_, hrest⟩
  exact (withBlock_getElem_above bytes t.v k.isLt (hw k hk)).trans (hv k hk)

theorem Unchanged.index {w : Writes} {s t : State} (h : Unchanged w s t) (hw : w.i = true) (index : Word) :
    Unchanged w s { t with i := index } := by
  obtain ⟨hv, -, hrest⟩ := h
  exact ⟨hv, by simp [hw], hrest⟩

theorem Unchanged.pc {w : Writes} {s t : State} (h : Unchanged w s t) (hw : w.pc = true) (pc : Word) :
    Unchanged w s { t with pc := pc } := by
  obtain ⟨hv, hi, -, hrest⟩ := h
  exact ⟨hv, hi, by simp [hw], hrest⟩

theorem Unchanged.sp {w : Writes} {s t : State} (h : Unchanged w s t) (hw : w.sp = true) (sp : BitVec 8) :
    Unchanged w s { t with sp := sp } := by
  obtain ⟨hv, hi, hpc, -, hrest⟩ := h
  exact ⟨hv, hi, hpc, by simp [hw], hrest⟩

theorem Unchanged.stackEntry {w : Writes} {s t : State} (h : Unchanged w s t) {n : Nat} (hn : n < 16)
    (hw : w.stack n = true) (entry : Word) : Unchanged w s { t with stack := t.stack.set n entry } := by
  obtain ⟨hv, hi, hpc, hsp, hstack, hrest⟩ := h
  refine ⟨hv, hi, hpc, hsp, fun k hk => ?_, hrest⟩
  have hne : n ≠ k.val := fun e => by simp [← e, hw] at hk
  exact (Vector.getElem_set_ne hn k.isLt hne).trans (hstack k hk)

theorem Unchanged.delayTimer {w : Writes} {s t : State} (h : Unchanged w s t) (hw : w.delayTimer = true) (b : Byte) :
    Unchanged w s { t with delayTimer := b } := by
  obtain ⟨hv, hi, hpc, hsp, hstack, -, hrest⟩ := h
  exact ⟨hv, hi, hpc, hsp, hstack, by simp [hw], hrest⟩

theorem Unchanged.soundTimer {w : Writes} {s t : State} (h : Unchanged w s t) (hw : w.soundTimer = true) (b : Byte) :
    Unchanged w s { t with soundTimer := b } := by
  obtain ⟨hv, hi, hpc, hsp, hstack, hdelay, -, hrest⟩ := h
  exact ⟨hv, hi, hpc, hsp, hstack, hdelay, by simp [hw], hrest⟩

theorem Unchanged.screen {w : Writes} {s t : State} (h : Unchanged w s t) (hw : w.video = true ∧ w.refresh = true)
    (video : Video) : Unchanged w s { t with videoMemory := video, refreshScreen := true } := by
  obtain ⟨hv, hi, hpc, hsp, hstack, hdelay, hsound, -, hmode, -, hrest⟩ := h
  exact ⟨hv, hi, hpc, hsp, hstack, hdelay, hsound, by simp [hw], hmode, by simp [hw], hrest⟩

theorem Unchanged.mode {w : Writes} {s t : State} (h : Unchanged w s t) (hw : w.mode = true) (extended : Bool) :
    Unchanged w s { t with extendedGraphicsMode := extended } := by
  obtain ⟨hv, hi, hpc, hsp, hstack, hdelay, hsound, hvideo, -, hrest⟩ := h
  exact ⟨hv, hi, hpc, hsp, hstack, hdelay, hsound, hvideo, by simp [hw], hrest⟩

theorem Unchanged.rBlock {w : Writes} {s t : State} (h : Unchanged w s t) {bytes : List Byte}
    (hw : ∀ k, w.r k = false → bytes.length ≤ k) : Unchanged w s { t with r := withBlock t.r 0 bytes } := by
  obtain ⟨hv, hi, hpc, hsp, hstack, hdelay, hsound, hvideo, hmode, hrefresh, hr, hrest⟩ := h
  exact ⟨hv, hi, hpc, hsp, hstack, hdelay, hsound, hvideo, hmode, hrefresh,
    fun k hk => (withBlock_getElem_above bytes t.r k.isLt (hw k hk)).trans (hr k hk), hrest⟩

theorem Unchanged.storeBytes {w : Writes} {s t : State} (h : Unchanged w s t) {a : Nat} {bytes : List Byte}
    (hw : ∀ k, w.memory k = false → k < a ∨ a + bytes.length ≤ k) : Unchanged w s (t.storeBytes a bytes) := by
  obtain ⟨hv, hi, hpc, hsp, hstack, hdelay, hsound, hvideo, hmode, hrefresh, hr, hmem, hrest⟩ := h
  exact ⟨hv, hi, hpc, hsp, hstack, hdelay, hsound, hvideo, hmode, hrefresh, hr,
    fun k hk => (t.byteAt_storeBytes_other bytes (hw k hk)).trans (hmem k hk), hrest⟩

theorem Unchanged.draws {w : Writes} {s t : State} (h : Unchanged w s t) (hw : w.draws = true) (draws : Nat) :
    Unchanged w s { t with draws := draws } := by
  obtain ⟨hv, hi, hpc, hsp, hstack, hdelay, hsound, hvideo, hmode, hrefresh, hr, hmem, -, hrest⟩ := h
  exact ⟨hv, hi, hpc, hsp, hstack, hdelay, hsound, hvideo, hmode, hrefresh, hr, hmem, by simp [hw], hrest⟩

/-! ### The frame of the operations that instructions share, and of each instruction -/

theorem unchanged_skipWhen {w : Writes} (hw : w.pc = true) (condition : Bool) (s : State) :
    Unchanged w s (skipWhen condition s) := by
  cases condition
  · exact Unchanged.refl w s
  · exact (Unchanged.refl w s).pc hw _

theorem Unchanged.of_skipOnKey {w : Writes} {pressed : Bool} {x : Reg} {s t : State} (hw : w.pc = true)
    (h : skipOnKey pressed x s = .next t) : Unchanged w s t := by
  obtain ⟨-, rfl⟩ | ⟨-, rfl⟩ := skipOnKey_cases h
  · exact Unchanged.refl w s
  · exact unchanged_skipWhen hw _ s

theorem Unchanged.of_call {nnn : Address} {s t : State} (h : call (nnn.setWidth 16) s = .next t) :
    Unchanged (writesOf s (.callNnn nnn)) s t := by
  obtain ⟨hs, rfl⟩ | ⟨-, rfl⟩ := call_cases h
  · exact (((Unchanged.refl _ s).stackEntry hs (by simp [writesOf]) _).sp rfl _).pc rfl _
  · exact Unchanged.refl _ s

theorem Unchanged.of_returnFromCall {s t : State} (h : returnFromCall s = .next t) :
    Unchanged (writesOf s .ret) s t := by
  obtain ⟨-, rfl⟩ | ⟨-, rfl⟩ := returnFromCall_cases h
  · exact Unchanged.refl _ s
  · exact ((Unchanged.refl _ s).sp rfl (s.sp - 1)).pc rfl _

theorem Unchanged.of_execLdVxK {x : Reg} {s t : State} (h : execLdVxK x s = .next t) :
    Unchanged (writesOf s (.ldVxK x)) s t := by
  unfold execLdVxK at h
  split at h
  · exact Unchanged.of_complete h ((Unchanged.refl _ s).setV (by simp [writesOf]) _)
  · exact Unchanged.of_complete h ((Unchanged.refl _ s).pc rfl _)

/-- Settles O23: each arm is a chain of writes that `writesOf` lists for its instruction. -/
theorem frameOfEveryInstruction : Obligations.FrameOfEveryInstruction := by
  unfold Obligations.FrameOfEveryInstruction
  intro i s t h
  have hrefl := Unchanged.refl (writesOf s i) s
  cases i
  case ret => exact Unchanged.of_returnFromCall h
  case callNnn => exact Unchanged.of_call h
  case jpNnn | jpV0Nnn => exact Unchanged.of_complete h (hrefl.pc rfl _)
  case seVxKk | sneVxKk | seVxVy | sneVxVy => exact Unchanged.of_complete h (unchanged_skipWhen rfl _ s)
  case skpVx | sknpVx => exact Unchanged.of_skipOnKey rfl h
  case ldVxK => exact Unchanged.of_execLdVxK h
  case ldVxKk | addVxKk | ldVxVy | orVxVy | andVxVy | xorVxVy | ldVxDt =>
    exact Unchanged.of_complete h (hrefl.setV (by simp [writesOf]) _)
  case addVxVy | subVxVy | shrVx | subnVxVy | shlVx =>
    exact Unchanged.of_complete h ((hrefl.setV (by simp [writesOf]) _).setV (by simp [writesOf, regF]) _)
  case rndVxKk => exact Unchanged.of_complete h ((hrefl.setV (by simp [writesOf]) _).draws rfl _)
  case ldINnn | ldFVx | ldHfVx => exact Unchanged.of_complete h (hrefl.index rfl _)
  case addIVx => exact Unchanged.of_complete h ((hrefl.index rfl _).setV rfl _)
  case cls | scdN | scr | scl => exact Unchanged.of_complete h (hrefl.screen ⟨rfl, rfl⟩ _)
  case drwVxVyN x y n =>
    rw [exec_drwVxVyN] at h
    exact Unchanged.of_accessThroughI h ((hrefl.screen ⟨rfl, rfl⟩ _).setV rfl _)
  case ldBVx x =>
    rw [exec_ldBVx] at h
    exact Unchanged.of_accessThroughI h (hrefl.storeBytes (by simp [writesOf, decimalDigits]; omega))
  case ldMemVx x =>
    rw [exec_ldMemVx] at h
    have hlen : (blockOf s.v (x.val + 1)).length = x.val + 1 := blockOf_length s.v (by omega)
    exact Unchanged.of_accessThroughI h ((hrefl.storeBytes (by simp [writesOf, hlen]; omega)).index rfl _)
  case ldVxMem x =>
    simp only [exec, execLdVxMem] at h
    exact Unchanged.of_accessThroughI h ((hrefl.vBlock (by simp [writesOf])).index rfl _)
  case low | high => exact Unchanged.of_complete h ((hrefl.screen ⟨rfl, rfl⟩ _).mode rfl _)
  case exit => exact Unchanged.of_raise h
  case ldDtVx => exact Unchanged.of_complete h (hrefl.delayTimer rfl _)
  case ldStVx => exact Unchanged.of_complete h (hrefl.soundTimer rfl _)
  case ldRVx x =>
    have hlen := blockOf_length_le s.v (x.val + 1)
    exact Unchanged.of_complete h (hrefl.rBlock (by simp [writesOf]; omega))
  case ldVxR x =>
    have hlen := blockOf_length_le s.r (x.val + 1)
    exact Unchanged.of_complete h (hrefl.vBlock (by simp [writesOf]; omega))

end Sys2Proof.Machine

/-! ## Proofs: the family `41_control_flow.md` -/

namespace Sys2Proof.Machine

/-! ### Jumps (R140, R147, R352) -/

theorem exec_jpNnn (nnn : Address) (s : State) :
    exec (.jpNnn nnn) s = .next { s with pc := nnn.setWidth 16, result := .ok } := rfl

theorem exec_jpV0Nnn (nnn : Address) (s : State) :
    exec (.jpV0Nnn nnn) s =
      .next { s with pc := nnn.setWidth 16 + (s.getV 0).setWidth 16, result := .ok } := rfl

theorem jumpTarget_toNat (nnn : Address) : (nnn.setWidth 16 : Word).toNat = nnn.toNat :=
  BitVec.toNat_setWidth_of_le (by decide)

/-- The largest sum, 0xFFF + 0xFF, fits a word, so BNNN does not wrap. -/
theorem jumpOffsetTarget_toNat (nnn : Address) (b : Byte) :
    (nnn.setWidth 16 + b.setWidth 16 : Word).toNat = nnn.toNat + b.toNat := by
  have := nnn.isLt
  have := b.isLt
  simp only [BitVec.toNat_add, BitVec.toNat_setWidth]
  omega

/-- Settles O24: each jump writes its target to `pc`, and neither target wraps. -/
theorem jumpTargets : Obligations.JumpTargets := by
  unfold Obligations.JumpTargets
  intro s nnn
  exact ⟨⟨_, exec_jpNnn nnn s, jumpTarget_toNat nnn, rfl⟩,
    ⟨_, exec_jpV0Nnn nnn s, jumpOffsetTarget_toNat nnn (s.getV 0), rfl⟩⟩

/-- Every word of family 1 is 1NNN (R97). -/
theorem decode_jpNnn (schip : Bool) {w : Word} (h : w.toNat / 4096 = 1) :
    decode schip w = .ok (.jpNnn (fieldNNN w)) := by
  have hrow : (⟨0xF000, 0x1000, .jpNnn (fieldNNN w)⟩ : Pattern) ∈ basePatterns w := by simp [basePatterns]
  exact decode_eq_ok_iff.2
    ⟨_, (basePatterns_sublist schip w).subset hrow, (and_f000_eq_iff w 0x1000).2 ⟨h, rfl⟩, rfl⟩

theorem fieldNNN_toNat (w : Word) : (fieldNNN w).toNat = w.toNat % 4096 := by
  simp [fieldNNN]

/-- The word is of family 1 and its low 12 bits are `pc`, which is where the jump goes back to. -/
theorem stepInstruction_selfJump {s : State} (hpc : s.pc.toNat ≤ 0x0FFE)
    (hword : s.fetchWord.toNat = 0x1000 + s.pc.toNat) : stepInstruction s = .next { s with result := .ok } := by
  have htarget : (fieldNNN s.fetchWord).setWidth 16 = s.pc := by
    apply BitVec.eq_of_toNat_eq
    rw [jumpTarget_toNat, fieldNNN_toNat, hword]
    omega
  have hdecode := decode_jpNnn s.config.schip (w := s.fetchWord) (by omega)
  rw [stepInstruction_decoded hpc hdecode, exec_jpNnn, htarget]
  rfl

/-- Settles O11: taking the head off the schedule changes neither `pc` nor the word fetched. -/
theorem selfJumpIsFixedPoint : Obligations.SelfJumpIsFixedPoint := by
  unfold Obligations.SelfJumpIsFixedPoint
  intro s hpc hword
  refine ⟨stepInstruction_selfJump hpc hword, fun hnext => ?_⟩
  have hdequeued : s.dequeued.fetchWord.toNat = 0x1000 + s.pc.toNat := by
    rw [State.dequeued_fetchWord]
    exact hword
  exact (step_stepIsNext hnext).trans (stepInstruction_selfJump (s := s.dequeued) hpc hdequeued)

/-! ### Call and return (R141, R143) -/

/-- `s` after 2NNN has pushed the advanced `pc`. -/
def State.called (s : State) (nnn : Address) (hs : s.sp.toNat < 16) : State :=
  { s with stack := s.stack.set s.sp.toNat s.pc, sp := s.sp + 1, pc := nnn.setWidth 16, result := .ok }

theorem exec_callNnn_pushes {s : State} (nnn : Address) (hs : s.sp.toNat < 16) :
    exec (.callNnn nnn) s = .next (s.called nnn hs) :=
  dif_pos hs

theorem exec_callNnn_overflows {s : State} (nnn : Address) (hs : s.sp.toNat = 16) :
    exec (.callNnn nnn) s = .next { s with result := .stackOverflow } :=
  (dif_neg (by omega)).trans (if_pos hs)

theorem State.called_sp {s : State} {nnn : Address} (hs : s.sp.toNat < 16) :
    (s.called nnn hs).sp.toNat = s.sp.toNat + 1 := by
  simp only [State.called, BitVec.toNat_add, BitVec.ofNat_eq_ofNat, BitVec.toNat_ofNat]
  omega

theorem State.called_stack {s : State} {nnn : Address} (hs : s.sp.toNat < 16) (k : Fin 16) :
    (s.called nnn hs).stack[k.val] = if k.val = s.sp.toNat then s.pc else s.stack[k.val] := by
  simp only [State.called, Vector.getElem_set, eq_comm]

/-- Settles O25: below 16 entries the push, at 16 the fault. -/
theorem callPushesReturnAddress : Obligations.CallPushesReturnAddress := by
  unfold Obligations.CallPushesReturnAddress
  intro s nnn
  refine ⟨fun hs => ⟨s.called nnn hs, exec_callNnn_pushes nnn hs, ?_, ?_, ?_, rfl⟩, exec_callNnn_overflows nnn⟩
  · exact jumpTarget_toNat nnn
  · exact State.called_sp hs
  · exact State.called_stack hs

theorem exec_ret_pops {s : State} {k : Fin 16} (hk : s.sp.toNat = k.val + 1) :
    exec .ret s = .next { s with pc := s.stack[k.val], sp := s.sp - 1, result := .ok } := by
  have hpop : exec .ret s = complete { s with pc := s.stack[s.sp.toNat - 1]'(by omega), sp := s.sp - 1 } :=
    (if_neg (by omega)).trans (dif_pos (by omega))
  simp only [hpop, complete, hk, Nat.add_sub_cancel]

theorem exec_ret_underflows {s : State} (hs : s.sp.toNat = 0) :
    exec .ret s = .next { s with result := .stackUnderflow } :=
  if_pos hs

/-- Settles O26: with an entry in use the pop, with none the fault. -/
theorem returnPopsStack : Obligations.ReturnPopsStack := by
  unfold Obligations.ReturnPopsStack
  intro s
  refine ⟨fun k hk => ⟨_, exec_ret_pops hk, rfl, ?_, rfl⟩, exec_ret_underflows⟩
  simp only [BitVec.toNat_sub, BitVec.ofNat_eq_ofNat, BitVec.toNat_ofNat]
  omega

/-- Settles O27: the return pops the entry the call wrote, the old `pc`, and takes off the 1 the call put on `sp`. -/
theorem returnUndoesCall : Obligations.ReturnUndoesCall := by
  unfold Obligations.ReturnUndoesCall
  intro s t nnn hs h
  obtain rfl : s.called nnn hs = t := Host.Outcome.next.inj ((exec_callNnn_pushes nnn hs).symm.trans h)
  have hpc : (s.called nnn hs).stack[s.sp.toNat] = s.pc :=
    (State.called_stack hs ⟨s.sp.toNat, hs⟩).trans (if_pos rfl)
  have hsp : (s.called nnn hs).sp - 1 = s.sp := BitVec.add_sub_cancel s.sp 1
  refine ⟨_, exec_ret_pops (k := ⟨s.sp.toNat, hs⟩) (State.called_sp hs), ?_⟩
  rw [hpc, hsp]
  rfl

/-! ### Skips (R144, R145, R146, R148) -/

/-- An instruction that ends in a skip adds 2 to `pc` exactly when its test holds, and changes nothing else. -/
theorem complete_skipWhen_spec {condition : Bool} {P : Prop} [Decidable P] (h : condition = true ↔ P) (s : State) :
    ∃ t, complete (skipWhen condition s) = .next t ∧
      t.pc.toNat = (if P then (s.pc.toNat + 2) % 65536 else s.pc.toNat) ∧
      t = { s with pc := t.pc, result := .ok } := by
  refine ⟨_, rfl, ?_, ?_⟩
  · simp only [skipWhen_pc, h]
    split <;> rfl
  · cases condition <;> rfl

theorem byte_beq_iff (a b : Byte) : (a == b) = true ↔ a.toNat = b.toNat := by
  rw [beq_iff_eq, BitVec.toNat_inj]

theorem byte_bne_iff (a b : Byte) : (a != b) = true ↔ a.toNat ≠ b.toNat := by
  rw [bne_iff_ne, ne_eq, ne_eq, BitVec.toNat_inj]

/-- Settles O28: each of the four is a skip on its own test. -/
theorem conditionalSkips : Obligations.ConditionalSkips := by
  unfold Obligations.ConditionalSkips
  intro s x y kk
  refine ⟨?_, ?_, ?_, ?_⟩
  · exact complete_skipWhen_spec (byte_beq_iff (s.getV x) kk) s
  · exact complete_skipWhen_spec (byte_bne_iff (s.getV x) kk) s
  · exact complete_skipWhen_spec (byte_beq_iff (s.getV x) (s.getV y)) s
  · exact complete_skipWhen_spec (byte_bne_iff (s.getV x) (s.getV y)) s

end Sys2Proof.Machine

/-! ## Proofs: the family `42_register_alu.md` -/

namespace Sys2Proof.Machine

/-! ### Flags and results as numbers (R162, R177) -/

theorem flagByte_toNat (condition : Bool) : (flagByte condition).toNat = condition.toNat := by
  cases condition <;> rfl

theorem flagByte_decide_toNat (P : Prop) [Decidable P] : (flagByte (decide P)).toNat = if P then 1 else 0 := by
  rw [flagByte_toNat, Bool.toNat, Bool.cond_decide]

theorem carryFlag_toNat (a b : Byte) : (carryFlag a b).toNat = if a.toNat + b.toNat > 255 then 1 else 0 :=
  flagByte_decide_toNat _

theorem noBorrowFlag_toNat (a b : Byte) : (noBorrowFlag a b).toNat = if a.toNat ≥ b.toNat then 1 else 0 :=
  flagByte_decide_toNat _

theorem shiftedRightFlag_toNat (a : Byte) : (shiftedRightFlag a).toNat = a.toNat % 2 := by
  rw [shiftedRightFlag, flagByte_toNat, BitVec.getLsbD, Nat.toNat_testBit, pow_zero, Nat.div_one]

/-- Bit 7 is the highest bit of a byte, so nothing is left above it. -/
theorem shiftedLeftFlag_toNat (a : Byte) : (shiftedLeftFlag a).toNat = a.toNat / 128 := by
  have := a.isLt
  rw [shiftedLeftFlag, flagByte_toNat, BitVec.getLsbD, Nat.toNat_testBit]
  omega

/-- The difference wraps to the residue modulo 256 of the integer difference (R162). -/
theorem byte_sub_toNat (a b : Byte) : ((a - b).toNat : Int) = (a.toNat - b.toNat : Int) % 256 := by
  have := b.isLt
  rw [BitVec.toNat_sub]
  omega

theorem byte_shiftRight_one_toNat (a : Byte) : (a >>> 1).toNat = a.toNat / 2 := by
  rw [BitVec.toNat_ushiftRight, Nat.shiftRight_eq_div_pow, pow_one]

theorem byte_shiftLeft_one_toNat (a : Byte) : (a <<< 1).toNat = 2 * a.toNat % 256 := by
  rw [BitVec.toNat_shiftLeft, Nat.shiftLeft_eq, pow_one, Nat.mul_comm]

/-! ### The forms that write VX and then a flag in VF (R163, R168 to R172) -/

/-- An instruction that ends in the two writes of R163 leaves the flag in VF whatever X is, the result in VX when that
is another register, and everything else as it was. `value` is how the statement reads the result, as a natural
number or an integer. -/
theorem complete_setVFlag_spec {α : Type} (value : Byte → α) {result flag : Byte} {r : α} {f : Nat}
    (hr : value result = r) (hf : flag.toNat = f) (s : State) (x : Reg) :
    ∃ t, complete (s.setVFlag x result flag) = .next t ∧ (x ≠ 15 → value (t.getV x) = r) ∧
      (t.getV 15).toNat = f ∧ (∀ k, k ≠ x → k ≠ 15 → t.getV k = s.getV k) ∧
      t = { s with v := t.v, result := .ok } := by
  refine ⟨_, rfl, fun (hx : x ≠ regF) => ?_, ?_, fun k hkx (hk : k ≠ regF) => ?_, rfl⟩
  · rw [State.getV_mk, State.getV_setVFlag, if_neg hx, if_pos rfl, hr]
  · exact (congrArg BitVec.toNat (s.getV_setVFlag_regF x result flag)).trans hf
  · rw [State.getV_mk, State.getV_setVFlag, if_neg hk, if_neg hkx]

/-- Settles O31: the sum and the carry, in the order of R163. -/
theorem addWithCarryOut : Obligations.AddWithCarryOut := by
  unfold Obligations.AddWithCarryOut
  intro s x y
  exact complete_setVFlag_spec BitVec.toNat (BitVec.toNat_add _ _) (carryFlag_toNat (s.getV x) (s.getV y)) s x

/-- Settles O32: 8XY7 is 8XY5 with the operands exchanged, the destination still VX. -/
theorem subtractsWithNotBorrow : Obligations.SubtractsWithNotBorrow := by
  unfold Obligations.SubtractsWithNotBorrow
  intro s x y
  have hsub (a b : Byte) := complete_setVFlag_spec (fun v => (v.toNat : Int)) (byte_sub_toNat a b)
    (noBorrowFlag_toNat a b) s x
  exact ⟨hsub (s.getV x) (s.getV y), hsub (s.getV y) (s.getV x)⟩

/-- Settles O33: both shifts read VX alone. -/
theorem shiftsInPlace : Obligations.ShiftsInPlace := by
  unfold Obligations.ShiftsInPlace
  intro s x y
  constructor
  · exact complete_setVFlag_spec BitVec.toNat (byte_shiftRight_one_toNat _) (shiftedRightFlag_toNat (s.getV x)) s x
  · exact complete_setVFlag_spec BitVec.toNat (byte_shiftLeft_one_toNat _) (shiftedLeftFlag_toNat (s.getV x)) s x

/-! ### The forms that write VX and no flag (R160, R161, R164 to R167) -/

/-- An instruction that ends in one register write changes that register alone, VF like any other. -/
theorem complete_setV_spec {P : Byte → Prop} {b : Byte} (h : P b) (s : State) (x : Reg) :
    ∃ t, complete (s.setV x b) = .next t ∧ P (t.getV x) ∧ (∀ k, k ≠ x → t.getV k = s.getV k) ∧
      t = { s with v := t.v, result := .ok } := by
  refine ⟨_, rfl, ?_, fun k hk => ?_, rfl⟩
  · rwa [State.getV_mk, State.getV_setV_same]
  · exact s.getV_setV_other b hk

theorem complete_setV_bits {b : Byte} {bit : Nat → Bool} (h : ∀ n, b.getLsbD n = bit n) (s : State) (x : Reg) :
    ∃ t, complete (s.setV x b) = .next t ∧ (∀ n, (t.getV x).getLsbD n = bit n) ∧
      (∀ k, k ≠ x → t.getV k = s.getV k) ∧ t = { s with v := t.v, result := .ok } :=
  complete_setV_spec (P := fun v => ∀ n, v.getLsbD n = bit n) h s x

/-- Settles O29: each is one register write, of the constant, the sum that wraps, or the source. -/
theorem loadsAndAddConstant : Obligations.LoadsAndAddConstant := by
  unfold Obligations.LoadsAndAddConstant
  intro s x y kk
  refine ⟨?_, ?_, ?_⟩
  · exact complete_setV_spec (P := (· = kk)) rfl s x
  · exact complete_setV_spec (P := (·.toNat = ((s.getV x).toNat + kk.toNat) % 256)) (BitVec.toNat_add _ _) s x
  · exact complete_setV_spec (P := (· = s.getV y)) rfl s x

/-- Settles O30: each is one register write, of the operation done on every bit. -/
theorem bitwiseForms : Obligations.BitwiseForms := by
  unfold Obligations.BitwiseForms
  intro s x y
  refine ⟨?_, ?_, ?_⟩
  · exact complete_setV_bits (fun _ => BitVec.getLsbD_or) s x
  · exact complete_setV_bits (fun _ => BitVec.getLsbD_and) s x
  · exact complete_setV_bits (fun _ => BitVec.getLsbD_xor) s x

/-! ### The random byte (R175, R176) -/

theorem exec_rndVxKk (x : Reg) (kk : Byte) (s : State) :
    exec (.rndVxKk x kk) s =
      .next { s.setV x (Config.freeByte s.draws &&& kk) with draws := s.draws + 1, result := .ok } := rfl

/-- Settles O34: one register write, of the drawn byte masked, and the count of draws. -/
theorem randomByteIsMasked : Obligations.RandomByteIsMasked := by
  unfold Obligations.RandomByteIsMasked
  intro s x kk
  have hx := s.getV_setV_same x (Config.freeByte s.draws &&& kk)
  refine ⟨_, exec_rndVxKk x kk s, fun n => ?_, fun hkk => ?_, rfl, fun k hk => ?_, rfl⟩
  · exact (congrArg (·.getLsbD n) hx).trans BitVec.getLsbD_and
  · subst hkk
    exact hx.trans BitVec.and_zero
  · exact s.getV_setV_other _ hk

end Sys2Proof.Machine

/-! ## Proofs: the family `43_index_memory.md` -/

namespace Sys2Proof.Machine

/-! ### What is stored in `I`, as a number (R190 to R194, R270) -/

theorem byteAsWord_toNat (b : Byte) : (b.setWidth 16 : Word).toNat = b.toNat :=
  BitVec.toNat_setWidth_of_le (by decide)

/-- The largest product, 255 * 5, fits a word, so FX29 does not wrap. -/
theorem glyphAddress_toNat (b : Byte) : (b.setWidth 16 * 5 : Word).toNat = b.toNat * 5 := by
  have := b.isLt
  rw [BitVec.toNat_mul, byteAsWord_toNat]
  exact Nat.mod_eq_of_lt (show b.toNat * 5 < 65536 by omega)

/-- The product 255 * 10 fits a word, but its sum with the base may wrap. -/
theorem bigGlyphAddress_toNat (base : Word) (b : Byte) :
    (base + b.setWidth 16 * 10 : Word).toNat = (base.toNat + b.toNat * 10) % 65536 := by
  rw [BitVec.toNat_add, BitVec.toNat_mul, byteAsWord_toNat]
  exact Nat.add_mod_mod _ _ _

theorem indexSum_toNat (i : Word) (b : Byte) :
    (i + b.setWidth 16 : Word).toNat = (i.toNat + b.toNat) % 65536 := by
  rw [BitVec.toNat_add, byteAsWord_toNat]

theorem indexFlag_toNat (i : Word) : (indexFlag i).toNat = if i.toNat > 0x0FFF then 1 else 0 :=
  flagByte_decide_toNat _

/-! ### The forms that write `I` alone (R190, R194, R270) -/

theorem complete_index_spec {index : Word} {n : Nat} (h : index.toNat = n) (s : State) :
    ∃ t, complete { s with i := index } = .next t ∧ t.i.toNat = n ∧ t = { s with i := t.i, result := .ok } :=
  ⟨_, rfl, h, rfl⟩

/-- Settles O36: each is one write of `I`, of the constant, the address of a glyph, or that of a 10-byte glyph. -/
theorem indexLoads : Obligations.IndexLoads := by
  unfold Obligations.IndexLoads
  intro s x nnn
  refine ⟨?_, ?_, ?_⟩
  · exact complete_index_spec (jumpTarget_toNat nnn) s
  · exact complete_index_spec (glyphAddress_toNat (s.getV x)) s
  · exact complete_index_spec (bigGlyphAddress_toNat s.config.bigFontBase (s.getV x)) s

/-! ### FX1E (R192) -/

/-- `s` after FX1E: the sum in `I`, then the flag of the stored sum in VF. -/
def State.indexAdvanced (s : State) (x : Reg) : State :=
  let sum := s.i + (s.getV x).setWidth 16
  { { s with i := sum }.setV regF (indexFlag sum) with result := .ok }

theorem exec_addIVx (x : Reg) (s : State) : exec (.addIVx x) s = .next (s.indexAdvanced x) := rfl

theorem State.indexAdvanced_i (s : State) (x : Reg) :
    (s.indexAdvanced x).i.toNat = (s.i.toNat + (s.getV x).toNat) % 65536 :=
  indexSum_toNat s.i (s.getV x)

theorem State.indexAdvanced_getV_flag (s : State) (x : Reg) :
    (s.indexAdvanced x).getV regF = indexFlag (s.indexAdvanced x).i :=
  State.getV_setV_same _ _ _

theorem State.indexAdvanced_getV_other (s : State) (x : Reg) {k : Reg} (hk : k ≠ regF) :
    (s.indexAdvanced x).getV k = s.getV k :=
  State.getV_setV_other { s with i := (s.indexAdvanced x).i } _ hk

/-- Settles O37: the flag is written after VX is read, so the addend is the old VF when X is 15 (R192). -/
theorem addToIndexSetsFlag : Obligations.AddToIndexSetsFlag := by
  unfold Obligations.AddToIndexSetsFlag
  intro s x
  have hflag := congrArg BitVec.toNat (s.indexAdvanced_getV_flag x)
  exact ⟨_, exec_addIVx x s, s.indexAdvanced_i x, hflag.trans (indexFlag_toNat _),
    fun _ hk => s.indexAdvanced_getV_other x hk, rfl⟩

/-! ### FX65 (R200, R202) -/

theorem exec_ldVxMem (x : Reg) (s : State) :
    exec (.ldVxMem x) s = accessThroughI (x.val + 1) s fun a =>
      { s with v := withBlock s.v 0 (s.bytesAt a (x.val + 1)), i := BitVec.ofNat 16 (a + x.val + 1) } := rfl

/-- `s` after FX65 has loaded V0 to VX from inside `memory` and advanced `I` past the bytes. -/
def State.blockLoaded (s : State) (x : Reg) : State :=
  { s with
    v := withBlock s.v 0 (s.bytesAt s.i.toNat (x.val + 1))
    i := BitVec.ofNat 16 (s.i.toNat + x.val + 1)
    result := .ok }

theorem exec_ldVxMem_inside {s : State} {x : Reg} (h : s.i.toNat + x.val ≤ 0x0FFF) :
    exec (.ldVxMem x) s = .next (s.blockLoaded x) :=
  (exec_ldVxMem x s).trans (accessThroughI_upTo_inside _ h)

theorem State.blockLoaded_getV_inside (s : State) {x k : Reg} (hk : k.val ≤ x.val) :
    (s.blockLoaded x).getV k = s.byteAt (s.i.toNat + k.val) := by
  calc (s.blockLoaded x).getV k
    _ = (s.bytesAt s.i.toNat (x.val + 1))[k.val]'(by simp; omega) :=
      (withBlock_getElem _ s.v 0 k.isLt).trans (dif_pos ⟨Nat.zero_le _, by simp; omega⟩)
    _ = s.byteAt (s.i.toNat + k.val) := s.bytesAt_getElem _ _ (by omega)

theorem State.blockLoaded_getV_above (s : State) {x k : Reg} (hk : x.val < k.val) :
    (s.blockLoaded x).getV k = s.getV k :=
  withBlock_getElem_above _ s.v k.isLt (by simpa using hk)

/-- `I` advances as it does for the store of the same block. -/
theorem State.blockLoaded_i {s : State} {x : Reg} (h : s.i.toNat + x.val ≤ 0x0FFF) :
    (s.blockLoaded x).i.toNat = s.i.toNat + x.val + 1 :=
  State.blockStored_i h

/-- Settles O40: in range the registers of the block hold the bytes and those above keep theirs; out of range the
access through `I` faults before its effect (R68). -/
theorem loadRegisterBlock : Obligations.LoadRegisterBlock := by
  unfold Obligations.LoadRegisterBlock
  intro s x
  refine ⟨fun hx => ⟨s.blockLoaded x, exec_ldVxMem_inside hx, fun k => ?_, State.blockLoaded_i hx, rfl⟩,
    fun hx => (exec_ldVxMem x s).trans (accessThroughI_upTo_outside _ hx)⟩
  split
  · next hk => exact s.blockLoaded_getV_inside hk
  · next hk => exact s.blockLoaded_getV_above (Nat.lt_of_not_le hk)

/-! ### A store and the load of the same block (R198, R200) -/

/-- Settles O41: FX65 reads `memory` as FX55 left it, where each register of the block is at its address. -/
theorem loadRestoresStoredBlock : Obligations.LoadRestoresStoredBlock := by
  unfold Obligations.LoadRestoresStoredBlock
  intro s t x other hs hx h
  obtain rfl : s.blockStored x = t := Host.Outcome.next.inj ((exec_ldMemVx_inside hx).symm.trans h)
  refine ⟨_, exec_ldVxMem_inside hx, fun k hk => ?_⟩
  calc ({ s.blockStored x with i := s.i, v := other }.blockLoaded x).getV k
    _ = (s.blockStored x).byteAt (s.i.toNat + k.val) := State.blockLoaded_getV_inside _ hk
    _ = s.getV k := State.blockStored_byteAt_inside hs hx hk

end Sys2Proof.Machine

/-! ## Proofs: the family `44_timers.md` -/

namespace Sys2Proof.Machine

/-! ### The timer instructions (R209 to R212) -/

theorem exec_ldVxDt (x : Reg) (s : State) : exec (.ldVxDt x) s = complete (s.setV x s.delayTimer) := rfl

theorem exec_ldDtVx (x : Reg) (s : State) :
    exec (.ldDtVx x) s = .next { s with delayTimer := s.getV x, result := .ok } := rfl

theorem exec_ldStVx (x : Reg) (s : State) :
    exec (.ldStVx x) s = .next { s with soundTimer := s.getV x, result := .ok } := rfl

/-- The beep is level-triggered, so it is on exactly when the sound timer holds a nonzero byte (R37, D21). -/
theorem playBeep_iff_of_soundTimer {t : State} {b : Byte} (h : t.soundTimer = b) :
    t.playBeep = true ↔ b.toNat ≠ 0 := by
  rw [playBeep_iff, h, Nat.pos_iff_ne_zero]

/-- Settles O43: FX07 is one register write, FX15 and FX18 are one timer write each. -/
theorem timerTransfers : Obligations.TimerTransfers := by
  unfold Obligations.TimerTransfers
  intro s x
  refine ⟨?_, ?_, ?_⟩
  · rw [exec_ldVxDt]
    exact complete_setV_spec (P := (· = s.delayTimer)) rfl s x
  · exact ⟨_, exec_ldDtVx x s, rfl, rfl⟩
  · exact ⟨_, exec_ldStVx x s, rfl, playBeep_iff_of_soundTimer rfl, rfl⟩

end Sys2Proof.Machine

/-! ## Proofs: the family `45_keypad.md` -/

namespace Sys2Proof.Machine

/-! ### The key vector (R38, R219) -/

theorem State.keyDown_val (s : State) (k : Fin 16) : s.keyDown k.val = s.key[k.val] :=
  dif_pos k.isLt

theorem State.firstKeyDown_eq_some_of_lowest {s : State} {k : Fin 16} (hk : s.key[k.val] = true)
    (hbelow : ∀ j : Fin 16, j.val < k.val → s.key[j.val] = false) : s.firstKeyDown = some k.val := by
  have hdown : s.keyDown k.val = true := (s.keyDown_val k).trans hk
  have hup (j : Nat) (hj : j < k.val) : s.keyDown j = false :=
    (s.keyDown_val ⟨j, hj.trans k.isLt⟩).trans (hbelow _ hj)
  exact List.find?_range_eq_some.2 ⟨hdown, List.mem_range.2 k.isLt, fun j hj => by rw [hup j hj]; rfl⟩

theorem State.firstKeyDown_eq_none_of_all_up {s : State} (h : ∀ k : Fin 16, s.key[k.val] = false) :
    s.firstKeyDown = none :=
  State.firstKeyDown_eq_none.2 fun k hk => (s.keyDown_val ⟨k, hk⟩).trans (h ⟨k, hk⟩)

/-! ### FX0A (R224, R225) -/

theorem exec_ldVxK_of_keyDown {s : State} {k : Nat} (x : Reg) (h : s.firstKeyDown = some k) :
    exec (.ldVxK x) s = complete (s.setV x (BitVec.ofNat 8 k)) := by
  simp only [exec, execLdVxK, h]

theorem exec_ldVxK_of_noKeyDown {s : State} (x : Reg) (h : s.firstKeyDown = none) :
    exec (.ldVxK x) s = .next { s with pc := s.pc - 2, result := .ok } := by
  simp only [exec, execLdVxK, h, complete]

/-- Settles O45: FX0A is one register write, of a key index, which a byte holds. -/
theorem keyWaitTakesLowestKey : Obligations.KeyWaitTakesLowestKey := by
  unfold Obligations.KeyWaitTakesLowestKey
  intro s x k hk hbelow
  have hindex : (BitVec.ofNat 8 k.val).toNat = k.val := (BitVec.toNat_ofNat _ _).trans (Nat.mod_eq_of_lt (by omega))
  rw [exec_ldVxK_of_keyDown x (State.firstKeyDown_eq_some_of_lowest hk hbelow)]
  exact complete_setV_spec (P := (·.toNat = k.val)) hindex s x

/-- The 2 that FX0A takes off `pc` is the 2 that fetch has added. -/
theorem stepInstruction_keyWait {s : State} {x : Reg} (hpc : s.pc.toNat ≤ 0x0FFE)
    (hdecode : decode s.config.schip s.fetchWord = .ok (.ldVxK x)) (hup : ∀ k : Fin 16, s.key[k.val] = false) :
    stepInstruction s = .next { s with result := .ok } := by
  have hnone : s.advance.firstKeyDown = none := State.firstKeyDown_eq_none_of_all_up hup
  have hback : s.advance.pc - 2 = s.pc := BitVec.add_sub_cancel s.pc 2
  rw [stepInstruction_decoded hpc hdecode, exec_ldVxK_of_noKeyDown x hnone, hback]
  rfl

/-- Settles O46: taking the head off the schedule changes neither `pc`, nor the word fetched, nor the keys. -/
theorem keyWaitWithoutKeyIsFixedPoint : Obligations.KeyWaitWithoutKeyIsFixedPoint := by
  unfold Obligations.KeyWaitWithoutKeyIsFixedPoint
  intro s x hpc hdecode hup
  refine ⟨stepInstruction_keyWait hpc hdecode hup, fun hnext => ?_⟩
  exact (step_stepIsNext hnext).trans (stepInstruction_keyWait (s := s.dequeued) hpc hdecode hup)

/-! ### Skips on a key (R219 to R221) -/

theorem skipOnKey_of_key {s : State} {x : Reg} {k : Fin 16} (pressed : Bool) (h : (s.getV x).toNat = k.val) :
    skipOnKey pressed x s = complete (skipWhen (s.key[k.val] == pressed) s) := by
  rw [skipOnKey, if_neg (by omega), h, State.keyDown_val]

theorem skipOnKey_of_noKey {s : State} {x : Reg} (pressed : Bool) (h : (s.getV x).toNat > 15) :
    skipOnKey pressed x s = .next { s with result := .keyIndexOutOfRange (s.getV x) } :=
  if_pos h

/-- EX9E and EXA1 are one skip, on a key that is down and on a key that is up. -/
theorem skipOnKey_spec {s : State} {x : Reg} {k : Fin 16} (pressed : Bool) (h : (s.getV x).toNat = k.val) :
    ∃ t, skipOnKey pressed x s = .next t ∧
      t.pc.toNat = (if s.key[k.val] = pressed then (s.pc.toNat + 2) % 65536 else s.pc.toNat) ∧
      t = { s with pc := t.pc, result := .ok } := by
  rw [skipOnKey_of_key pressed h]
  exact complete_skipWhen_spec beq_iff_eq s

/-- Settles O44: with VX a key index the skip on that key, with VX above 15 the fault. -/
theorem keySkips : Obligations.KeySkips := by
  unfold Obligations.KeySkips
  intro s x
  exact ⟨fun k hk => ⟨skipOnKey_spec true hk, skipOnKey_spec false hk⟩,
    fun hx => ⟨skipOnKey_of_noKey true hx, skipOnKey_of_noKey false hx⟩⟩

end Sys2Proof.Machine

/-! ## Proofs: the family `46_display.md` -/

namespace Sys2Proof.Machine

/-! ### 00E0 (R230) -/

theorem exec_cls (s : State) :
    exec .cls s = .next { s with videoMemory := s.videoMemory.cleared, refreshScreen := true, result := .ok } := rfl

/-- Settles O47: clearing leaves no cell set, in the active grid or outside it, and adds none. -/
theorem clearDisplay : Obligations.ClearDisplay := by
  unfold Obligations.ClearDisplay
  intro s
  exact ⟨_, exec_cls s, Video.pix_cleared _ _ _, Video.cell_cleared _, Video.size_cleared _, rfl, rfl⟩

/-! ### DXYN out of range, and with no row (R232, R236) -/

theorem exec_drwVxVyN_outside {s : State} {x y : Reg} {n : Count} (hn : 0 < n.val)
    (h : 0x0FFF < s.i.toNat + n.val - 1) :
    exec (.drwVxVyN x y n) s = .next { s with result := .memoryOutOfRange (max s.i.toNat 0x1000) } :=
  (exec_drwVxVyN x y n s).trans (accessThroughI_outside _ hn (by unfold memorySize; omega))

/-- A sprite without rows plots no point, so no cell changes and nothing collides. -/
theorem State.withSprite_nil (s : State) (x0 y0 : Byte) :
    s.withSprite x0 y0 [] = { s.setV regF 0 with refreshScreen := true } := rfl

theorem exec_drwVxVyN_zeroRows {s : State} {x y : Reg} {n : Count} (hn : n.val = 0) :
    exec (.drwVxVyN x y n) s = .next { s.setV regF 0 with refreshScreen := true, result := .ok } := by
  have hsprite : s.bytesAt s.i.toNat n.val = [] := List.eq_nil_of_length_eq_zero (by simpa using hn)
  rw [exec_drwVxVyN_inside (.inl hn), hsprite, State.withSprite_nil]

/-- Settles O49: out of range the access through `I` faults before its effect (R68), and with N = 0 it is in range
whatever `I` is, the effect on V being the one write of VF. -/
theorem drawFaultAndZeroRows : Obligations.DrawFaultAndZeroRows := by
  unfold Obligations.DrawFaultAndZeroRows
  intro s x y n
  refine ⟨exec_drwVxVyN_outside, fun hn => ⟨_, exec_drwVxVyN_zeroRows hn, ?_, fun k hk => ?_, rfl⟩⟩
  · exact State.getV_setV_same s regF 0
  · exact State.getV_setV_other s 0 hk

/-! ### The same sprite drawn twice (R232, R233) -/

/-- The inversion of a DXYN that returns `Ok`. -/
theorem exec_drwVxVyN_ok {s t : State} {x y : Reg} {n : Count} (h : exec (.drwVxVyN x y n) s = .next t)
    (hok : t.result = .ok) :
    (n.val = 0 ∨ s.i.toNat + n.val - 1 ≤ 0x0FFF) ∧
      t = { s.withSprite (s.getV x) (s.getV y) (s.bytesAt s.i.toNat n.val) with result := .ok } := by
  rw [exec_drwVxVyN] at h
  obtain ⟨hin, rfl⟩ | ⟨-, -, rfl⟩ := accessThroughI_cases h
  · exact ⟨by unfold memorySize at hin; omega, rfl⟩
  · cases hok

/-- Drawing writes neither `memory` nor the mode, so the same sprite covers the same pixels afterwards. -/
theorem spriteCovers_withSprite (s : State) (x0 y0 : Byte) (sprite : List Byte) (n x y : Nat) :
    SpriteCovers (s.withSprite x0 y0 sprite) x0 y0 n x y ↔ SpriteCovers s x0 y0 n x y := Iff.rfl

@[simp] theorem State.withSprite_width (s : State) (x0 y0 : Byte) (sprite : List Byte) :
    (s.withSprite x0 y0 sprite).width = s.width := rfl

@[simp] theorem State.withSprite_height (s : State) (x0 y0 : Byte) (sprite : List Byte) :
    (s.withSprite x0 y0 sprite).height = s.height := rfl

/-- Both draws toggle the same pixels, those covered that have a cell, and two toggles cancel. -/
theorem State.drawn_twice_pix (s : State) (x0 y0 : Byte) {sprite : List Byte} (hrows : sprite.length ≤ 16) (x y : Nat) :
    ((s.withSprite x0 y0 sprite).drawn x0 y0 sprite).video.pix s.width s.height x y = s.pix x y := by
  have hfirst : (s.withSprite x0 y0 sprite).pix x y = _ := (s.drawn_spec x0 y0 hrows).1 x y
  refine (((s.withSprite x0 y0 sprite).drawn_spec x0 y0 hrows).1 x y).trans ?_
  rw [hfirst, State.withSprite_videoMemory, (s.drawn_store x0 y0 sprite).1, State.withSprite_width,
    State.withSprite_height, Bool.xor_assoc, Bool.xor_self, Bool.xor_false]

/-- A covered pixel is set after the draw exactly when it was not before. -/
theorem SpriteCovers.withSprite_pix {s : State} {x0 y0 : Byte} {n x y : Nat} (h : SpriteCovers s x0 y0 n x y)
    (hs : s.VideoCovers) (hn : n ≤ 16) :
    (s.withSprite x0 y0 (s.bytesAt s.i.toNat n)).pix x y = true ↔ s.pix x y = false := by
  have hne : (s.withSprite x0 y0 (s.bytesAt s.i.toNat n)).pix x y ≠ s.pix x y :=
    fun he => (State.drawn_pix_eq_iff hs x0 y0 hn x y).1 he h
  rw [Bool.eq_not_of_ne hne, Bool.not_eq_true']

/-- The second draw collides exactly when the first one has set a pixel (R232; log entry 9). -/
theorem State.drawn_twice_collision_iff {s : State} (hs : s.VideoCovers) (x0 y0 : Byte) {n : Nat} (hn : n ≤ 16) :
    ((s.withSprite x0 y0 (s.bytesAt s.i.toNat n)).drawn x0 y0 (s.bytesAt s.i.toNat n)).collision = true ↔
      ∃ x y, SpriteCovers s x0 y0 n x y ∧ s.pix x y = false := by
  refine ((s.withSprite x0 y0 (s.bytesAt s.i.toNat n)).drawn_collision_iff x0 y0 hn).trans ?_
  refine exists_congr fun x => exists_congr fun y => ?_
  rw [spriteCovers_withSprite]
  exact and_congr_right fun hc => hc.withSprite_pix hs hn

theorem flagByte_eq_one_iff (condition : Bool) : flagByte condition = 1 ↔ condition = true := by
  cases condition <;> decide

theorem State.withSprite_flag_iff (s : State) (x0 y0 : Byte) (sprite : List Byte) :
    (s.withSprite x0 y0 sprite).getV 15 = 1 ↔ (s.drawn x0 y0 sprite).collision = true := by
  rw [State.withSprite_getV_flag]
  exact flagByte_eq_one_iff _

/-- Settles O50: the first draw leaves `I`, `memory` and the mode, so the second one draws the same sprite at the same
place, on the grid the first one left. -/
theorem drawTwiceRestoresDisplay : Obligations.DrawTwiceRestoresDisplay := by
  unfold Obligations.DrawTwiceRestoresDisplay
  intro s t x y n h hok hx hy
  obtain ⟨hin, rfl⟩ := exec_drwVxVyN_ok h hok
  have hrows : n.val ≤ 16 := by omega
  refine ⟨_, exec_drwVxVyN_inside hin, ?_⟩
  rw [hx, hy]
  refine ⟨s.drawn_twice_pix _ _ (by simp [hrows]), fun hs => ?_⟩
  exact (State.withSprite_flag_iff _ _ _ _).trans (State.drawn_twice_collision_iff hs _ _ hrows)

end Sys2Proof.Machine

/-! ## Proofs: the family `48_host_operations.md` -/

namespace Sys2Proof.Machine

/-! ### `load_program` (R280, R281) -/

theorem loadProgram_tooLong {bytes : List Byte} (s : State) (h : programMax < bytes.length) :
    loadProgram bytes s = .next { s with result := .programTooLarge bytes.length } :=
  if_pos h

/-- `s` after `load_program` has copied the program. -/
def State.programLoaded (s : State) (bytes : List Byte) : State :=
  { s.storeBytes programBase bytes with result := .ok }

theorem loadProgram_fits {bytes : List Byte} (s : State) (h : bytes.length ≤ programMax) :
    loadProgram bytes s = .next (s.programLoaded bytes) :=
  if_neg (Nat.not_lt.2 h)

/-- The longest program accepted ends with `memory`, so every byte of a program is read back. -/
theorem State.programLoaded_byteAt_inside {s : State} {bytes : List Byte} (hs : s.MemoryWf)
    (h : bytes.length ≤ programMax) {k : Nat} (hk : k < bytes.length) :
    (s.programLoaded bytes).byteAt (programBase + k) = bytes[k] :=
  s.byteAt_storeBytes_inside bytes hs (Nat.add_le_add_left h programBase) hk

theorem State.programLoaded_byteAt_outside (s : State) (bytes : List Byte) {a : Nat}
    (h : a < programBase ∨ programBase + bytes.length ≤ a) : (s.programLoaded bytes).byteAt a = s.byteAt a :=
  s.byteAt_storeBytes_other bytes h

/-- Settles O57: a program that fits is stored inside `memory` and read back byte by byte; a longer one is refused
before anything is stored. -/
theorem loadProgramCopiesOrRefuses : Obligations.LoadProgramCopiesOrRefuses := by
  unfold Obligations.LoadProgramCopiesOrRefuses
  intro s bytes
  refine ⟨loadProgram_tooLong s, fun hs hfits => ⟨s.programLoaded bytes, loadProgram_fits s hfits, ?_, ?_, rfl⟩⟩
  · exact fun _ hk => State.programLoaded_byteAt_inside hs hfits hk
  · exact fun _ ha => s.programLoaded_byteAt_outside bytes ha

/-! ### `export_state` and `import_state` (R290, R292) -/

theorem importState_of_wellTyped {snapshot : Snapshot} {s : State} (h : snapshot.wellTyped s.config = true) :
    importState snapshot s = .next { s with toSnapshot := snapshot, result := .ok } :=
  if_pos h

theorem importState_of_illTyped {snapshot : Snapshot} {s : State} (h : snapshot.wellTyped s.config = false) :
    importState snapshot s = .refused .importIllTyped :=
  if_neg (by simp [h])

/-- Settles O60: the snapshot replaces every field of R20 and no other, so importing what a state
exported puts back what it holds. -/
theorem importInstallsSnapshot : Obligations.ImportInstallsSnapshot := by
  unfold Obligations.ImportInstallsSnapshot
  intro s snapshot
  refine ⟨fun hwell => ⟨_, importState_of_wellTyped hwell, rfl, rfl, rfl, rfl⟩, importState_of_illTyped, rfl, ?_⟩
  exact fun hs => importState_of_wellTyped (snapshot := s.exported) hs

/-! ### `write_keys` and `clear_refresh` (R286, R288) -/

/-- Settles O59: each operation completes, having written its one field. -/
theorem keyAndRefreshWrites : Obligations.KeyAndRefreshWrites := by
  unfold Obligations.KeyAndRefreshWrites
  exact fun s keys => ⟨rfl, rfl⟩

end Sys2Proof.Machine

/-! ## Proofs: the family `60_exceptions.md` -/

namespace Sys2Proof.Machine

/-! ### The state after a fault of `step()` (R126, R306) -/

/-- A fetch fault and an unknown word write the result they say, and an instruction executed faults precisely on the
state with `pc` advanced. -/
theorem stepInstruction_faultIsPrecise {s t : State} (h : stepInstruction s = .next t) (hr : t.result ≠ .ok) :
    FaultIsPrecise s t := by
  obtain ⟨hpc, rfl⟩ | ⟨hpc, -, rfl⟩ | ⟨hpc, i, -, he⟩ := stepInstruction_cases h
  · exact ⟨fun hle => absurd hpc (Nat.not_lt.2 hle), fun _ => ⟨rfl, _, rfl⟩⟩
  · exact ⟨fun _ => rfl, fun hlt => absurd hlt (Nat.not_lt.2 hpc)⟩
  · exact ⟨fun _ => (exec_effect he).eq_of_result_ne_ok hr, fun hlt => absurd hlt (Nat.not_lt.2 hpc)⟩

/-- Settles O20: a move that is a `step()` runs it on the state without the head of its schedule. -/
theorem stepFaultsArePrecise : Obligations.StepFaultsArePrecise := by
  unfold Obligations.StepFaultsArePrecise
  intro s t hr
  refine ⟨fun h => stepInstruction_faultIsPrecise h hr, fun hnext h => ?_⟩
  rw [step_stepIsNext hnext] at h
  exact stepInstruction_faultIsPrecise h hr

/-! ### Which instruction raises which fault (R300, R314) -/

/-- Executing `i` on `s` raises `k`: the five kinds that execute can raise, each with the instructions that raise it
and their condition. -/
inductive Raises (s : State) : Instr → Result → Prop
  /-- 2NNN with sixteen entries in use (R141). -/
  | call (nnn : Address) (hsp : s.sp.toNat = 16) : Raises s (.callNnn nnn) .stackOverflow
  /-- 00EE with none (R143). -/
  | ret (hsp : s.sp.toNat = 0) : Raises s .ret .stackUnderflow
  /-- FX33: the last of its three bytes (R68, R196). -/
  | digits (x : Reg) (hi : 0xFFF < s.i.toNat + 2) : Raises s (.ldBVx x) (.memoryOutOfRange (max s.i.toNat 0x1000))
  /-- FX55: the last byte of the block (R68, R198). -/
  | storeBlock (x : Reg) (hi : 0xFFF < s.i.toNat + x.val) :
      Raises s (.ldMemVx x) (.memoryOutOfRange (max s.i.toNat 0x1000))
  /-- FX65: the last byte of the block (R68, R200). -/
  | loadBlock (x : Reg) (hi : 0xFFF < s.i.toNat + x.val) :
      Raises s (.ldVxMem x) (.memoryOutOfRange (max s.i.toNat 0x1000))
  /-- DXYN: the last row of the sprite, when it has one (R68, R232). -/
  | sprite (x y : Reg) (n : Count) (hn : 0 < n.val) (hi : 0xFFF < s.i.toNat + n.val - 1) :
      Raises s (.drwVxVyN x y n) (.memoryOutOfRange (max s.i.toNat 0x1000))
  /-- EX9E: VX names no key (R219). -/
  | skipDown (x : Reg) (hv : 15 < (s.getV x).toNat) : Raises s (.skpVx x) (.keyIndexOutOfRange (s.getV x))
  /-- EXA1: VX names no key (R219). -/
  | skipUp (x : Reg) (hv : 15 < (s.getV x).toNat) : Raises s (.sknpVx x) (.keyIndexOutOfRange (s.getV x))
  /-- 00FD, always (R258). -/
  | exit : Raises s .exit .exitRequested

/-- Where the condition of a fault holds, the instruction answers that fault and nothing else. -/
theorem Raises.exec_eq {s : State} {i : Instr} {k : Result} (h : Raises s i k) :
    exec i s = .next { s with result := k } := by
  cases h with
  | call nnn hsp => exact exec_callNnn_overflows nnn hsp
  | ret hsp => exact exec_ret_underflows hsp
  | digits x hi => exact (exec_ldBVx x s).trans (accessThroughI_upTo_outside _ hi)
  | storeBlock x hi => exact (exec_ldMemVx x s).trans (accessThroughI_upTo_outside _ hi)
  | loadBlock x hi => exact (exec_ldVxMem x s).trans (accessThroughI_upTo_outside _ hi)
  | sprite x y n hn hi => exact exec_drwVxVyN_outside hn hi
  | skipDown x hv => exact skipOnKey_of_noKey true hv
  | skipUp x hv => exact skipOnKey_of_noKey false hv
  | exit => rfl

theorem result_of_complete {s t : State} (h : complete s = .next t) : t.result = .ok :=
  (complete_eq_next _ _).1 h ▸ rfl

theorem result_of_execLdVxK {x : Reg} {s t : State} (h : execLdVxK x s = .next t) : t.result = .ok := by
  unfold execLdVxK at h
  split at h <;> exact result_of_complete h

/-- An access through `I` completes, or raises its one fault where the bytes end above 0xFFF. -/
theorem ok_or_raises_of_accessThroughI {i : Instr} {n : Nat} {s t : State} {effect : Nat → State}
    (h : accessThroughI n s effect = .next t)
    (hraises : 0 < n → 0x1000 < s.i.toNat + n → Raises s i (.memoryOutOfRange (max s.i.toNat 0x1000))) :
    t.result = .ok ∨ Raises s i t.result := by
  obtain ⟨-, rfl⟩ | ⟨hn, hout, rfl⟩ := accessThroughI_cases h
  · exact .inl rfl
  · exact .inr (hraises hn hout)

theorem ok_or_raises_of_skipOnKey {i : Instr} {pressed : Bool} {x : Reg} {s t : State}
    (h : skipOnKey pressed x s = .next t)
    (hraises : 15 < (s.getV x).toNat → Raises s i (.keyIndexOutOfRange (s.getV x))) :
    t.result = .ok ∨ Raises s i t.result := by
  obtain ⟨hv, rfl⟩ | ⟨-, rfl⟩ := skipOnKey_cases h
  · exact .inr (hraises hv)
  · exact .inl rfl

/-- The arms that branch or raise are named; each of the others completes. -/
theorem exec_ok_or_raises {i : Instr} {s t : State} (h : exec i s = .next t) :
    t.result = .ok ∨ Raises s i t.result := by
  cases i
  case callNnn nnn =>
    obtain ⟨-, rfl⟩ | ⟨hsp, rfl⟩ := call_cases h
    · exact .inl rfl
    · exact .inr (.call nnn hsp)
  case ret =>
    obtain ⟨hsp, rfl⟩ | ⟨-, rfl⟩ := returnFromCall_cases h
    · exact .inr (.ret hsp)
    · exact .inl rfl
  case ldBVx x =>
    rw [exec_ldBVx] at h
    exact ok_or_raises_of_accessThroughI h fun _ hout => .digits x (by omega)
  case ldMemVx x =>
    rw [exec_ldMemVx] at h
    exact ok_or_raises_of_accessThroughI h fun _ hout => .storeBlock x (by omega)
  case ldVxMem x =>
    rw [exec_ldVxMem] at h
    exact ok_or_raises_of_accessThroughI h fun _ hout => .loadBlock x (by omega)
  case drwVxVyN x y n =>
    rw [exec_drwVxVyN] at h
    exact ok_or_raises_of_accessThroughI h fun hn hout => .sprite x y n hn (by omega)
  case skpVx x => exact ok_or_raises_of_skipOnKey h (.skipDown x)
  case sknpVx x => exact ok_or_raises_of_skipOnKey h (.skipUp x)
  case exit =>
    obtain rfl := (raise_eq_next _ _ _).1 h
    exact .inr .exit
  case ldVxK => exact .inl (result_of_execLdVxK h)
  all_goals exact .inl (result_of_complete h)

/-- An instruction answers a fault exactly when it raises it. -/
theorem result_eq_iff_raises {i : Instr} {s t : State} {k : Result} (h : exec i s = .next t) (hk : k ≠ .ok) :
    t.result = k ↔ Raises s i k := by
  constructor
  · rintro rfl
    exact (exec_ok_or_raises h).resolve_left hk
  · intro hraises
    obtain rfl := Host.Outcome.next.inj (hraises.exec_eq.symm.trans h)
    rfl

theorem raises_stackOverflow_iff {s : State} {i : Instr} :
    Raises s i .stackOverflow ↔ (∃ nnn, i = .callNnn nnn) ∧ s.sp.toNat = 16 := by
  constructor
  · intro h
    cases h with
    | call nnn hsp => exact ⟨⟨nnn, rfl⟩, hsp⟩
  · rintro ⟨⟨nnn, rfl⟩, hsp⟩
    exact .call nnn hsp

theorem raises_stackUnderflow_iff {s : State} {i : Instr} :
    Raises s i .stackUnderflow ↔ i = .ret ∧ s.sp.toNat = 0 := by
  constructor
  · intro h
    cases h with
    | ret hsp => exact ⟨rfl, hsp⟩
  · rintro ⟨rfl, hsp⟩
    exact .ret hsp

theorem raises_memoryOutOfRange_iff {s : State} {i : Instr} {e : Nat} :
    Raises s i (.memoryOutOfRange e) ↔ e = max s.i.toNat 0x1000 ∧
      ((∃ x, i = .ldBVx x ∧ 0xFFF < s.i.toNat + 2) ∨
       (∃ x : Reg, (i = .ldMemVx x ∨ i = .ldVxMem x) ∧ 0xFFF < s.i.toNat + x.val) ∨
       (∃ (x y : Reg) (n : Count), i = .drwVxVyN x y n ∧ 0 < n.val ∧ 0xFFF < s.i.toNat + n.val - 1)) := by
  constructor
  · intro h
    cases h with
    | digits x hi => exact ⟨rfl, .inl ⟨x, rfl, hi⟩⟩
    | storeBlock x hi => exact ⟨rfl, .inr (.inl ⟨x, .inl rfl, hi⟩)⟩
    | loadBlock x hi => exact ⟨rfl, .inr (.inl ⟨x, .inr rfl, hi⟩)⟩
    | sprite x y n hn hi => exact ⟨rfl, .inr (.inr ⟨x, y, n, rfl, hn, hi⟩)⟩
  · rintro ⟨rfl, ⟨x, rfl, hi⟩ | ⟨x, rfl | rfl, hi⟩ | ⟨x, y, n, rfl, hn, hi⟩⟩
    · exact .digits x hi
    · exact .storeBlock x hi
    · exact .loadBlock x hi
    · exact .sprite x y n hn hi

theorem raises_keyIndexOutOfRange_iff {s : State} {i : Instr} {v : Byte} :
    Raises s i (.keyIndexOutOfRange v) ↔ ∃ x, (i = .skpVx x ∨ i = .sknpVx x) ∧ v = s.getV x ∧ 15 < v.toNat := by
  constructor
  · intro h
    cases h with
    | skipDown x hv => exact ⟨x, .inl rfl, rfl, hv⟩
    | skipUp x hv => exact ⟨x, .inr rfl, rfl, hv⟩
  · rintro ⟨x, rfl | rfl, rfl, hv⟩
    · exact .skipDown x hv
    · exact .skipUp x hv

theorem raises_exitRequested_iff {s : State} {i : Instr} : Raises s i .exitRequested ↔ i = .exit := by
  constructor
  · intro h
    cases h with
    | exit => rfl
  · rintro rfl
    exact .exit

theorem not_raises_unknownInstruction {s : State} {i : Instr} (op a : Word) :
    ¬ Raises s i (.unknownInstruction op a) := nofun

theorem not_raises_programTooLarge {s : State} {i : Instr} (n : Nat) : ¬ Raises s i (.programTooLarge n) := nofun

/-- Settles O21: the result of an instruction is a fault exactly when the instruction raises it, and each kind is
raised by the instructions and under the condition that `Raises` lists. -/
theorem faultKindsAndConditions : Obligations.FaultKindsAndConditions := by
  unfold Obligations.FaultKindsAndConditions
  intro i s t h
  have hresult {k : Result} (hk : k ≠ .ok) : t.result = k ↔ Raises s i k := result_eq_iff_raises h hk
  refine ⟨?_, ?_, fun e => ?_, fun v => ?_, ?_, fun op a hr => ?_, fun n hr => ?_⟩
  · exact (hresult (by nofun)).trans raises_stackOverflow_iff
  · exact (hresult (by nofun)).trans raises_stackUnderflow_iff
  · exact (hresult (by nofun)).trans raises_memoryOutOfRange_iff
  · exact (hresult (by nofun)).trans raises_keyIndexOutOfRange_iff
  · exact (hresult (by nofun)).trans raises_exitRequested_iff
  · exact not_raises_unknownInstruction op a ((hresult (by nofun)).1 hr)
  · exact not_raises_programTooLarge n ((hresult (by nofun)).1 hr)

/-! ### 00FD (R258, R308) -/

theorem exec_exit (s : State) : exec .exit s = .next { s with result := .exitRequested } := rfl

theorem stepInstruction_exit {s : State} (hpc : s.pc.toNat ≤ 0x0FFE)
    (hdecode : decode s.config.schip s.fetchWord = .ok .exit) :
    stepInstruction s = .next { s with pc := s.pc + 2, result := .exitRequested } :=
  (stepInstruction_decoded hpc hdecode).trans (exec_exit s.advance)

/-- Settles O53: taking the head off the schedule changes neither `pc` nor the word fetched. -/
theorem exitIsDelivered : Obligations.ExitIsDelivered := by
  unfold Obligations.ExitIsDelivered
  refine ⟨exec_exit, fun s hpc hword => ⟨stepInstruction_exit hpc hword, fun hnext => ?_⟩⟩
  exact (step_stepIsNext hnext).trans (stepInstruction_exit (s := s.dequeued) hpc hword)

end Sys2Proof.Machine

/-! ## Proofs: the family `70_reset_and_hazards.md` -/

namespace Sys2Proof.Machine

/-! ### The state after reset (R50, R52) -/

/-- Settles O15: the reset snapshot is well-typed on every machine, and `reset()` on the reset state, which leaves it
bounded, leaves that state itself. -/
theorem resetIsWellTypedAndBounded : Obligations.ResetIsWellTypedAndBounded := by
  unfold Obligations.ResetIsWellTypedAndBounded
  refine ⟨fun c => ?_, rfl⟩
  have hwell : (State.resetWith c).WellTyped := Snapshot.reset_wellTyped c
  exact ⟨rfl, hwell, hwell.videoCovers, reset_bounded (State.resetWith c) .ok, rfl⟩

/-! ### `reset()` (R340, R341) -/

/-- `s` after `reset()`. -/
def State.afterReset (s : State) : State := { s with toSnapshot := Snapshot.reset s.config, result := .ok }

theorem operate_reset (s : State) : operate .reset s = .next s.afterReset := rfl

/-- Memory reads as the font below 0x050 and zero above (R50). -/
theorem State.afterReset_byteAt (s : State) (a : Nat) : s.afterReset.byteAt a = resetByte s.config a := rfl

theorem resetByte_font (c : Config) {a : Nat} (h : a < 80) : resetByte c a = c.font[a] := dif_pos h

theorem resetByte_above (c : Config) {a : Nat} (h : 80 ≤ a) : resetByte c a = 0 := dif_neg (Nat.not_lt.2 h)

theorem State.afterReset_getV (s : State) (k : Reg) : s.afterReset.getV k = 0 := Vector.getElem_replicate _

theorem State.afterReset_pix (s : State) (x y : Nat) : s.afterReset.pix x y = false := by
  simp [State.pix, Video.pix, State.afterReset, Snapshot.reset]

/-- Settles O55: each field is the constant that `Snapshot.reset` gives it, read at every place. -/
theorem resetSetsEveryField : Obligations.ResetSetsEveryField := by
  unfold Obligations.ResetSetsEveryField
  intro s
  refine ⟨s.afterReset, operate_reset s, fun a ha => ?_, fun a ha _ => ?_, s.afterReset_getV, rfl, rfl, rfl,
    fun k => Vector.getElem_replicate _, rfl, rfl, rfl, s.afterReset_pix, Video.cell_dark _, Video.size_dark _, rfl,
    fun k => Vector.getElem_replicate _, rfl, fun k => Vector.getElem_replicate _, rfl⟩
  · exact (s.afterReset_byteAt a).trans (resetByte_font s.config ha)
  · exact (s.afterReset_byteAt a).trans (resetByte_above s.config ha)

theorem State.afterReset_exported (s : State) : s.afterReset.exported = Snapshot.reset s.config := rfl

/-- Settles O56: what reset leaves depends on the parameters alone, and reset keeps them. -/
theorem resetIsIdempotent : Obligations.ResetIsIdempotent := by
  unfold Obligations.ResetIsIdempotent
  intro s s' hconfig
  refine ⟨_, _, operate_reset s, operate_reset s', ?_, operate_reset s.afterReset⟩
  rw [State.afterReset_exported, State.afterReset_exported, hconfig]

end Sys2Proof.Machine
